-- ==== Sys2Proof/Word.lean ====
section
/-! DEFINITION. The bit vectors the spec names (spec/00_scope.md R5): the Word, the 12-bit address, and the byte the
model's memory list and the loader's files are made of. -/

namespace Sys2Proof

/-- A Word: 16 bits, bit 15 the most significant (R5). -/
abbrev Word := BitVec 16

/-- An address: 12 bits, the number of one 16-bit cell (20_memory.md R30). -/
abbrev Addr := BitVec 12

/-- A byte: outside the core only (20_memory.md R36), and the unit of the model's memory list (log entry 1). -/
abbrev Byte := BitVec 8

end Sys2Proof
end

