-- ==== Sys2Proof/Config.lean ====
section
/-! DEFINITION. What a run is configured with (spec/00_scope.md R4) and the values the spec leaves open, as constants
without a body: nothing can be proved of their values. -/

namespace Sys2Proof

/-- The two output render modes (44_io_system.md R110). -/
inductive OutputMode where
  | dec
  | ascii
deriving DecidableEq, Repr, Inhabited

/-- `OUTPUT_MODE_SOURCE` (R4, R110): the startup argument, or cell 0x010 read at every OUTPUT (90_conflicts.md C8). -/
inductive OutputModeSource where
  | startup
  | cell0x010
deriving DecidableEq, Repr

/-- `PTR_POLICY` (R4, 41_data_transfer.md R80, 90_conflicts.md C1). -/
inductive PtrPolicy where
  | mask
  | fault
deriving DecidableEq, Repr

/-- The configuration the core consults during a run; it does not change during the run
(70_reset_and_hazards.md R141 (5)). -/
structure Params where
  outputMode : OutputMode
  outputModeSource : OutputModeSource
  ptrPolicy : PtrPolicy
deriving DecidableEq, Repr

/-- The defaults of R4. -/
def Params.default : Params := { outputMode := .dec, outputModeSource := .startup, ptrPolicy := .mask }

/-- Everything a machine is built from (R4, 70_reset_and_hazards.md R141): the configuration, `ENTRY_PC` (any Word)
and `IMAGE`. -/
structure Launch where
  params : Params
  entryPc : Word
  image : List Word
deriving DecidableEq, Repr

/-- The launch with every parameter at its default and an empty image, which R47 calls legal. -/
def Launch.default : Launch := { params := Params.default, entryPc := 0x0000#16, image := [] }

/-- `mode_of_cell` (R4, OPEN; 91_not_in_source.md N7): which cell values select which mode. FREE VALUE (log entry 5). -/
opaque Config.modeOfCell : Word → OutputMode

/-- What the environment does in its n-th turn while the core is held at an INPUT (44_io_system.md R109,
40_cycle.md R71): it supplies any word, or none yet. FREE VALUE (log entry 2). -/
opaque Config.arrival : Nat → Option Word

/-- `DEC_SUFFIX` (R4, OPEN; 91_not_in_source.md N9): the text after a decimal numeral. FREE VALUE (log entry 5). -/
opaque Config.decSuffix : List Char

/-- `parse_line` (R4, OPEN; 91_not_in_source.md N10): which lines parse as a signed integer, and as which.
FREE VALUE (log entry 5). -/
opaque Config.parseLine : List Char → Option Int

/-- The bytes a hex text file stands for, or none where it is malformed (20_memory.md R36): the loader's, whose
details the spec does not give. FREE VALUE (log entry 5). -/
opaque Config.hexBytes : List Char → Option (List Byte)

end Sys2Proof
end

