-- ==== Sys2Proof/Machine/State.lean ====
section
/-! DEFINITION. The state of the machine as plain data (spec/10_state.md R10), the reasons a step can stop, and the
machine right after reset (R22). -/

namespace Sys2Proof.Machine

/-- The run state (10_state.md R17). `halted` is terminal and reached by HALT alone. -/
inductive RunState where
  | running
  | halted
deriving DecidableEq, Repr

/-- Memory as a list of (byte number, byte): cell `a` of the spec is byte `2a`, its bits 15 to 8, and byte `2a + 1`, its
bits 7 to 0 (log entry 1; the order is that of the loader's binary files, 20_memory.md R36). A byte that is not listed
is 0x00, because memory is "zero-initialized" (10_state.md R20). -/
abbrev Memory := List Host.Cell

/-- The canonical form: byte numbers strictly rising, all inside the 4096 cells, no byte listed that equals what an
unlisted one reads as. Equal memories are then equal lists. -/
abbrev Memory.wf (m : Memory) : Prop :=
  m.Pairwise (fun c d => c.1 < d.1) ∧ ∀ c ∈ m, c.1 < 8192 ∧ c.2 ≠ 0x00#8

/-- The machine's state: the tuple of R10, then the two streams of 44_io_system.md R109, the configuration of the run
(00_scope.md R4, written by no step), and the model's own counter of the environment's turns. -/
structure State where
  /-- AC, the accumulator (R11). -/
  ac : Word
  /-- PC, the program counter, all 16 bits kept (R12). -/
  pc : Word
  /-- IR, the instruction register (R13). -/
  ir : Word
  /-- MAR, the memory address register (R14). -/
  mar : Word
  /-- MBR, the memory buffer register (R15). -/
  mbr : Word
  /-- The run state (R17). -/
  run : RunState
  /-- The memory (R20). -/
  mem : Memory
  /-- Input words supplied and not yet consumed, the next one first (R109). -/
  input : List Word
  /-- The output stream, oldest first (R109). -/
  output : List (Word × OutputMode)
  /-- The configuration of this run (00_scope.md R4). -/
  params : Params
  /-- MODEL'S OWN: how many turns the environment has had while the core was held at an INPUT (log entry 2). -/
  envClock : Nat
deriving DecidableEq, Repr

/-- Why the machine stops for good. -/
inductive Fault where
  /-- `AddressOutOfRange(ptr)` (60_exceptions.md R122): raised by ADDI, LOADI and STOREI under `PTR_POLICY = fault` when
  the pointer has a nonzero bit above bit 11. It is the spec's own fault; stopping is safe, and no next state is given
  (R128). -/
  | addressOutOfRange (ptr : Word)
deriving DecidableEq, Repr

/-- Why an instruction is refused. -/
inductive Refusal where
  /-- Raised by `exec` for an instruction the model has no meaning for; safe. Every instruction has one, so no arm
  raises it. -/
  | notModelled (mnemonic : String)
deriving DecidableEq, Repr

/-- The machine right after reset (R22) with the default configuration and an empty image. The stream of input words and
the environment's counter have no value in the spec (log entries 2 and 3). -/
def State.reset : State :=
  { ac := 0x0000#16
    pc := 0x0000#16
    ir := 0x0000#16
    mar := 0x0000#16
    mbr := 0x0000#16
    run := .running
    mem := []
    input := []
    output := []
    params := Params.default
    envClock := 0 }

end Sys2Proof.Machine
end

