-- ==== Sys2Proof/Syntax.lean ====
section
/-! DEFINITION. The instruction set as an inductive type: one constructor per row of spec/opcode_table.json
(30_encoding.md R54). Ignored operand bits are kept in the instruction (R55, R60), so that no bit of a word is lost. -/

namespace Sys2Proof

/-- The four conditions of SKIPCOND, `IR[11:10]` = 00, 01, 10, 11 (30_encoding.md R53). -/
inductive SkipTest where
  | negative
  | zero
  | positive
  | never
deriving DecidableEq, Repr

/-- The sixteen instructions, in the order of their opcodes 0x0 to 0xF (R54). `a` is a direct address, `p` the address
of a pointer cell (for JUMPI, of the cell that holds the new PC), `x` bits the instruction ignores (R55). -/
inductive Instr where
  | jns (a : Addr)
  | load (a : Addr)
  | store (a : Addr)
  | add (a : Addr)
  | subt (a : Addr)
  | input (x : BitVec 12)
  | output (x : BitVec 12)
  | halt (x : BitVec 12)
  | skipcond (c : SkipTest) (x : BitVec 10)
  | jump (a : Addr)
  | clear (x : BitVec 12)
  | addi (p : Addr)
  | jumpi (p : Addr)
  | loadi (p : Addr)
  | storei (p : Addr)
  | nopF (x : BitVec 12)
deriving DecidableEq, Repr

/-- An instruction written as two plain numbers, opcode and operand (30_encoding.md R60). -/
structure RawInstr where
  opcode : Nat
  operand : Nat
deriving DecidableEq, Repr

end Sys2Proof
end

