-- ==== Sys2Proof/Machine/Flags.lean ====
section
/-! DEFINITION. The ALU (spec/42_arithmetic.md R85). The machine has no flags at all (10_state.md R18): the three tests
look at AC itself when SKIPCOND executes. -/

namespace Sys2Proof.Machine

/-- `alu_add`: the sum modulo 2^16 (R85, R89). -/
def aluAdd (a b : Word) : Word := a + b

/-- `alu_sub`: the difference modulo 2^16 (R85, R89). -/
def aluSub (a b : Word) : Word := a - b

/-- `is_neg`: bit 15 is one (R85). -/
def isNeg (a : Word) : Bool := a.getLsbD 15

/-- `is_zero` (R85). -/
def isZero (a : Word) : Bool := a == 0x0000#16

/-- `is_pos`: bit 15 is zero and the word is not zero (R85). -/
def isPos (a : Word) : Bool := !a.getLsbD 15 && a != 0x0000#16

/-- Whether SKIPCOND's condition holds of AC (43_control.md R96); condition 11 never does (30_encoding.md R56). -/
def skipHolds (c : SkipTest) (ac : Word) : Bool :=
  match c with
  | .negative => isNeg ac
  | .zero => isZero ac
  | .positive => isPos ac
  | .never => false

end Sys2Proof.Machine
end

