-- ==== Sys2Proof/WellFormed.lean ====
section
/-! DEFINITION. Which written-down things stand for something on the machine. The operand types of `Instr` leave no
ill-formed instruction (30_encoding.md R54, R56: the decoder is total, no encoding is illegal); the checks that can fail
are those on plain numbers and on an image's length. -/

namespace Sys2Proof

/-- Every `Instr` is well formed: each field has exactly the bits the format gives it (R51, R53). -/
def Instr.wf : Instr → Bool
  | .jns _ | .load _ | .store _ | .add _ | .subt _ | .input _ | .output _ | .halt _ => true
  | .skipcond _ _ | .jump _ | .clear _ | .addi _ | .jumpi _ | .loadi _ | .storei _ | .nopF _ => true

/-- The opcode is a 4-bit number (R51). -/
def RawInstr.opcodeFits (r : RawInstr) : Bool := decide (r.opcode < 16)

/-- The operand is a 12-bit number (R51). -/
def RawInstr.operandFits (r : RawInstr) : Bool := decide (r.operand < 4096)

/-- Both fields fit the format of R51. -/
def RawInstr.wf (r : RawInstr) : Bool := r.opcodeFits && r.operandFits

/-- The image fits the memory (20_memory.md R47, 60_exceptions.md R125): at most 4096 words. -/
def Launch.wf (l : Launch) : Bool := decide (l.image.length ≤ 4096)

end Sys2Proof
end

