-- ==== Sys2Proof/Decode.lean ====
section
/-! DEFINITION. Decoding and encoding (spec/30_encoding.md, 40_cycle.md R67): the field slices, `decode`, total on every
Word, `encode`, written from the same table, the table itself, and the decoder under the opcode table's numbering. -/

namespace Sys2Proof

/-- `(IR >> 12) & 0xF`, that is `IR[15:12]` (R51, R67). -/
def opcodeOf (w : Word) : BitVec 4 := w.extractLsb' 12 4

/-- `IR & 0xFFF`, that is `IR[11:0]` (R51, R67). -/
def operandOf (w : Word) : Addr := w.extractLsb' 0 12

/-- `(IR >> 10) & 0b11`, that is `IR[11:10]` (R53). -/
def condOf (w : Word) : BitVec 2 := w.extractLsb' 10 2

/-- `IR[9:0]`, which SKIPCOND ignores (R53). -/
def skipRestOf (w : Word) : BitVec 10 := w.extractLsb' 0 10

/-- The condition a `cond` field selects (R53). -/
def skipTestOf (c : BitVec 2) : SkipTest :=
  if c = 0b00#2 then .negative
  else if c = 0b01#2 then .zero
  else if c = 0b10#2 then .positive
  else .never

/-- The `cond` field of a condition (R53). -/
def SkipTest.code : SkipTest → BitVec 2
  | .negative => 0b00#2
  | .zero => 0b01#2
  | .positive => 0b10#2
  | .never => 0b11#2

/-- Decode, the table of R54: total, every Word is exactly one instruction, and 0xF is the table's "other" (R56). -/
def decode (w : Word) : Instr :=
  match opcodeOf w with
  | 0x0#4 => .jns (operandOf w)
  | 0x1#4 => .load (operandOf w)
  | 0x2#4 => .store (operandOf w)
  | 0x3#4 => .add (operandOf w)
  | 0x4#4 => .subt (operandOf w)
  | 0x5#4 => .input (operandOf w)
  | 0x6#4 => .output (operandOf w)
  | 0x7#4 => .halt (operandOf w)
  | 0x8#4 => .skipcond (skipTestOf (condOf w)) (skipRestOf w)
  | 0x9#4 => .jump (operandOf w)
  | 0xA#4 => .clear (operandOf w)
  | 0xB#4 => .addi (operandOf w)
  | 0xC#4 => .jumpi (operandOf w)
  | 0xD#4 => .loadi (operandOf w)
  | 0xE#4 => .storei (operandOf w)
  | _ => .nopF (operandOf w)

/-- The opcode of an instruction (R54). -/
def Instr.opcode : Instr → BitVec 4
  | .jns _ => 0x0#4
  | .load _ => 0x1#4
  | .store _ => 0x2#4
  | .add _ => 0x3#4
  | .subt _ => 0x4#4
  | .input _ => 0x5#4
  | .output _ => 0x6#4
  | .halt _ => 0x7#4
  | .skipcond _ _ => 0x8#4
  | .jump _ => 0x9#4
  | .clear _ => 0xA#4
  | .addi _ => 0xB#4
  | .jumpi _ => 0xC#4
  | .loadi _ => 0xD#4
  | .storei _ => 0xE#4
  | .nopF _ => 0xF#4

/-- The twelve low bits of an instruction: its operand, or the bits it ignores (R51, R53). -/
def Instr.operand : Instr → BitVec 12
  | .jns a | .load a | .store a | .add a | .subt a | .jump a => a
  | .addi p | .jumpi p | .loadi p | .storei p => p
  | .input x | .output x | .halt x | .clear x | .nopF x => x
  | .skipcond c x => c.code ++ x

/-- The word of an instruction, `k[3:0] ++ n[11:0]` (R60). -/
def encode (i : Instr) : Word := i.opcode ++ i.operand

/-- The mnemonic, as R54's table spells it. -/
def Instr.mnemonic : Instr → String
  | .jns _ => "JnS"
  | .load _ => "LOAD"
  | .store _ => "STORE"
  | .add _ => "ADD"
  | .subt _ => "SUBT"
  | .input _ => "INPUT"
  | .output _ => "OUTPUT"
  | .halt _ => "HALT"
  | .skipcond _ _ => "SKIPCOND"
  | .jump _ => "JUMP"
  | .clear _ => "CLEAR"
  | .addi _ => "ADDI"
  | .jumpi _ => "JUMPI"
  | .loadi _ => "LOADI"
  | .storei _ => "STOREI"
  | .nopF _ => "NOP_F"

/-- The opcode map of R54 as data: mnemonic, mask and match. -/
def opcodeTable : List (String × Word × Word) :=
  [("JnS", 0xF000#16, 0x0000#16), ("LOAD", 0xF000#16, 0x1000#16), ("STORE", 0xF000#16, 0x2000#16),
   ("ADD", 0xF000#16, 0x3000#16)] ++
  [("SUBT", 0xF000#16, 0x4000#16), ("INPUT", 0xF000#16, 0x5000#16), ("OUTPUT", 0xF000#16, 0x6000#16),
   ("HALT", 0xF000#16, 0x7000#16)] ++
  [("SKIPCOND", 0xF000#16, 0x8000#16), ("JUMP", 0xF000#16, 0x9000#16), ("CLEAR", 0xF000#16, 0xA000#16),
   ("ADDI", 0xF000#16, 0xB000#16)] ++
  [("JUMPI", 0xF000#16, 0xC000#16), ("LOADI", 0xF000#16, 0xD000#16), ("STOREI", 0xF000#16, 0xE000#16),
   ("NOP_F", 0xF000#16, 0xF000#16)]

/-- The rows of R54's table a word matches: "a word `w` is the instruction of a row iff `w & mask = match`". -/
def rowsOf (w : Word) : List String :=
  (opcodeTable.filter (fun r => w &&& r.2.1 == r.2.2)).map (fun r => r.1)

/-- The word of an instruction written as two numbers, `k * 4096 + n` (R60); none where a field does not fit. -/
def RawInstr.assemble (r : RawInstr) : Option Word :=
  if r.wf then some (BitVec.ofNat 16 (r.opcode * 4096 + r.operand)) else none

/-- The instruction is INPUT (opcode 0x5), the only one whose step may be held (40_cycle.md R71). -/
def Instr.isInput : Instr → Bool
  | .input _ => true
  | .jns _ | .load _ | .store _ | .add _ | .subt _ | .output _ | .halt _ | .skipcond _ _ => false
  | .jump _ | .clear _ | .addi _ | .jumpi _ | .loadi _ | .storei _ | .nopF _ => false

/-- The decoder under spec/opcode_table.json's numbering: every row has 16 bits in one word, bit 0 the least
significant, so a row's bits are the Word itself; no instruction is longer than one word (R50, R58). -/
def decodeTableWord (nbits w : Nat) : Option Instr :=
  if nbits ≤ 16 then some (decode (BitVec.ofNat 16 w)) else none

end Sys2Proof
end

