-- ==== Sys2Proof/Machine/Ops.lean ====
section
/-! DEFINITION. The named operations over memory, registers and the two streams: `MemRead` and `MemWrite`
(spec/20_memory.md R32, R33), Fetch (40_cycle.md R66), the hold (R71), and the one fatal stop (60_exceptions.md R122). -/

namespace Sys2Proof.Machine

/-! ### Bytes of the memory list -/

/-- What a byte reads as: its entry, or 0x00 when none is listed ("zero-initialized", 10_state.md R20). -/
def Memory.readByte : Memory → Nat → Byte
  | [], _ => 0x00#8
  | c :: m, n => if c.1 = n then c.2 else Memory.readByte m n

/-- The list without any entry for byte `n`. -/
def Memory.erase (m : Memory) (n : Nat) : Memory := m.filter (fun c => c.1 != n)

/-- The list with `c` put before the first entry that lies above it. -/
def Memory.insert (c : Host.Cell) : Memory → Memory
  | [] => [c]
  | d :: m => if c.1 < d.1 then c :: d :: m else d :: Memory.insert c m

/-- Byte `n` set to `v`, in canonical form: writing 0x00 removes the entry. -/
def Memory.writeByte (m : Memory) (n : Nat) (v : Byte) : Memory :=
  if v = 0x00#8 then m.erase n else (m.erase n).insert (n, v)

/-! ### Cells, the only unit the machine accesses -/

/-- The byte number of bits 15 to 8 of cell `a` (log entry 1). -/
def hiByteOf (a : Addr) : Nat := 2 * a.toNat

/-- The byte number of bits 7 to 0 of cell `a` (log entry 1). -/
def loByteOf (a : Addr) : Nat := 2 * a.toNat + 1

/-- `MemRead(a, 16)` (R32). -/
def Memory.read (m : Memory) (a : Addr) : Word := m.readByte (hiByteOf a) ++ m.readByte (loByteOf a)

/-- `MemWrite(a, 16, v)` (R33): all 16 bits, no other cell. -/
def Memory.write (m : Memory) (a : Addr) (v : Word) : Memory :=
  (m.writeByte (hiByteOf a) (v.extractLsb' 8 8)).writeByte (loByteOf a) (v.extractLsb' 0 8)

/-- `load(words)` from cell `n` on (R47): one word a cell, in order. -/
def Memory.loadFrom (m : Memory) (n : Nat) : List Word → Memory
  | [] => m
  | w :: ws => Memory.loadFrom (m.write (BitVec.ofNat 12 n) w) (n + 1) ws

/-! ### Addresses -/

/-- The 12 bits of a Word that reach the memory (R35, R46): bits 15 to 12 are discarded. -/
def addrBits (w : Word) : Addr := w.extractLsb' 0 12

/-- `zext_16` of an address (00_scope.md R6, 30_encoding.md R52). -/
def zextAddr (a : Addr) : Word := a.setWidth 16

/-! ### Registers, memory and streams of a state -/

/-- AC <- v. -/
def State.setAc (s : State) (v : Word) : State := { s with ac := v }

/-- PC <- v. -/
def State.setPc (s : State) (v : Word) : State := { s with pc := v }

/-- IR <- v. -/
def State.setIr (s : State) (v : Word) : State := { s with ir := v }

/-- MAR <- v. -/
def State.setMar (s : State) (v : Word) : State := { s with mar := v }

/-- MBR <- v. -/
def State.setMbr (s : State) (v : Word) : State := { s with mbr := v }

/-- run <- r. -/
def State.setRun (s : State) (r : RunState) : State := { s with run := r }

/-- The word of cell `a` (R32): reading changes nothing. -/
def State.loadCell (s : State) (a : Addr) : Word := s.mem.read a

/-- Cell `a` set to `v` (R33). -/
def State.storeCell (s : State) (a : Addr) (v : Word) : State := { s with mem := s.mem.write a v }

/-- The input words not yet consumed (44_io_system.md R109). -/
def State.setInput (s : State) (ws : List Word) : State := { s with input := ws }

/-- `Out(v, m)` (R109): one element appended to the output stream. -/
def State.emit (s : State) (v : Word) (m : OutputMode) : State := { s with output := s.output ++ [(v, m)] }

/-- PC <- PC + 1 modulo 2^16: the incrementer of Fetch and of a taken skip (40_cycle.md R66, R73; 43_control.md R96). -/
def State.incPc (s : State) : State := s.setPc (s.pc + 0x0001#16)

/-! ### Fetch and the hold -/

/-- The word at `PC[11:0]`, the one the next step fetches (R66). -/
def State.nextWord (s : State) : Word := s.loadCell (addrBits s.pc)

/-- Fetch (R66): `MAR := PC & 0xFFF; IR := Memory.read(MAR); PC := PC + 1`. -/
def State.fetch (s : State) : State :=
  let s1 := s.setMar (zextAddr (addrBits s.pc))
  let s2 := s1.setIr (s1.loadCell (addrBits s1.mar))
  s2.incPc

/-- The step cannot be taken now (R71): the word at `PC[11:0]` is INPUT and the input stream has no word. -/
def State.held (s : State) : Bool := (decode s.nextWord).isInput && s.input.isEmpty

/-- The environment's turn while the core is held (R71, R109): it supplies a word or not. No register, no cell and no
output changes; the counter makes the next turn a fresh free value (log entry 2). -/
def State.awaitInput (s : State) : State :=
  { s with input := s.input ++ (Config.arrival s.envClock).toList, envClock := s.envClock + 1 }

/-! ### The fatal stop -/

/-- `raise AddressOutOfRange(ptr)` (60_exceptions.md R122, R128): the step ends with the fault and the run is over.
There is no other exception, no handler and no return from one (R120, R129), so this is the one shared operation. -/
def raiseAddressOutOfRange (ptr : Word) : Host.Outcome State Fault Refusal := .fault (.addressOutOfRange ptr)

end Sys2Proof.Machine
end

