-- ==== Sys2Proof/Machine/Operands.lean ====
section
/-! DEFINITION. The operand forms (spec/30_encoding.md R52): the direct address, the pointer, and the output mode that
OUTPUT reads (44_io_system.md R110). -/

namespace Sys2Proof.Machine

/-- The Word operand of an instruction, `zext_16(IR[11:0])` (R52): never sign-extended. -/
def operandWord (a : Addr) : Word := zextAddr a

/-- The word a direct address names (41_data_transfer.md R75, 42_arithmetic.md R86, R87). -/
def State.direct (s : State) (a : Addr) : Word := s.loadCell a

/-- The pointer: the whole Word in the cell the operand names (41_data_transfer.md R77, R78; 42_arithmetic.md R88). -/
def State.pointer (s : State) (p : Addr) : Word := s.loadCell p

/-- `ptr[15:12]`, the bits of a pointer that name no cell (R80). -/
def pointerHigh (ptr : Word) : BitVec 4 := ptr.extractLsb' 12 4

/-- `EffAddr(ptr)` (41_data_transfer.md R80): the low 12 bits, or no address at all where the policy is `fault` and a
high bit is set. -/
def effAddr (policy : PtrPolicy) (ptr : Word) : Option Addr :=
  match policy with
  | .mask => some (addrBits ptr)
  | .fault => if pointerHigh ptr = 0x0#4 then some (addrBits ptr) else none

/-- An access through the pointer in cell `p`: read the pointer, form the effective address, then do `k` with it, or
raise the fault before the access and before anything is written (R80, 60_exceptions.md R122, R127). -/
def State.throughPointer (s : State) (p : Addr) (k : Addr → State) : Host.Outcome State Fault Refusal :=
  match effAddr s.params.ptrPolicy (s.pointer p) with
  | some ea => .next (k ea)
  | none => raiseAddressOutOfRange (s.pointer p)

/-- The reserved cell of the `cell_0x010` variant (20_memory.md R39 (c)). -/
def modeCell : Addr := 0x010#12

/-- The output mode at an OUTPUT (44_io_system.md R110), evaluated now. -/
def State.outputMode (s : State) : OutputMode :=
  match s.params.outputModeSource with
  | .startup => s.params.outputMode
  | .cell0x010 => Config.modeOfCell (s.loadCell modeCell)

end Sys2Proof.Machine
end

