-- ==== Sys2Proof/Machine/Arithmetic.lean ====
section
/-! DEFINITION. ADD, SUBT, ADDI (spec/42_arithmetic.md): the Execute part of each, on the state Fetch left. -/

namespace Sys2Proof.Machine

/-- ADD (R86): `AC := AC + Memory.read(operand)` (wrapping). -/
def execAdd (a : Addr) (s : State) : Host.Outcome State Fault Refusal := .next (s.setAc (aluAdd s.ac (s.direct a)))

/-- SUBT (R87): `AC := AC − Memory.read(operand)` (wrapping); the memory word is the subtrahend. -/
def execSubt (a : Addr) (s : State) : Host.Outcome State Fault Refusal := .next (s.setAc (aluSub s.ac (s.direct a)))

/-- ADDI (R88): `ptr := Memory.read(operand); AC := AC + Memory.read(ptr)`, wrapping like ADD. -/
def execAddi (p : Addr) (s : State) : Host.Outcome State Fault Refusal :=
  s.throughPointer p (fun ea => s.setAc (aluAdd s.ac (s.loadCell ea)))

end Sys2Proof.Machine
end

