-- ==== Sys2Proof/Machine/Control.lean ====
section
/-! DEFINITION. JnS, SKIPCOND, JUMP, JUMPI (spec/43_control.md): the Execute part of each, on the state Fetch left, so
that `pc` is the post-increment value. -/

namespace Sys2Proof.Machine

/-- JnS (R95): `MAR:=operand; MBR:=PC; Memory.write(MAR,MBR); PC:=operand+1`. All 16 bits of PC are stored, and
`operand + 1` is not masked (0x0001 to 0x1000). -/
def execJns (a : Addr) (s : State) : Host.Outcome State Fault Refusal :=
  let s1 := s.setMar (operandWord a)
  let s2 := s1.setMbr s1.pc
  let s3 := s2.storeCell (addrBits s2.mar) s2.mbr
  .next (s3.setPc (operandWord a + 0x0001#16))

/-- SKIPCOND (R96): one more to PC when the condition holds of AC. -/
def execSkipcond (c : SkipTest) (_x : BitVec 10) (s : State) : Host.Outcome State Fault Refusal :=
  .next (if skipHolds c s.ac then s.incPc else s)

/-- JUMP (R97): `PC := operand`; bits 15 to 12 become zero. -/
def execJump (a : Addr) (s : State) : Host.Outcome State Fault Refusal := .next (s.setPc (operandWord a))

/-- JUMPI (R98): `PC := Memory.read(operand)`, the whole Word, one read (90_conflicts.md C9). -/
def execJumpi (p : Addr) (s : State) : Host.Outcome State Fault Refusal := .next (s.setPc (s.direct p))

end Sys2Proof.Machine
end

