-- ==== Sys2Proof/Machine/DataTransfer.lean ====
section
/-! DEFINITION. LOAD, STORE, LOADI, STOREI, CLEAR (spec/41_data_transfer.md): the Execute part of each, on the state
Fetch left. -/

namespace Sys2Proof.Machine

/-- LOAD (R75): `AC := Memory.read(operand)`. -/
def execLoad (a : Addr) (s : State) : Host.Outcome State Fault Refusal := .next (s.setAc (s.direct a))

/-- STORE (R76): `Memory.write(operand, AC)`. -/
def execStore (a : Addr) (s : State) : Host.Outcome State Fault Refusal := .next (s.storeCell a s.ac)

/-- LOADI (R77): `ptr := Memory.read(operand); AC := Memory.read(ptr)`. -/
def execLoadi (p : Addr) (s : State) : Host.Outcome State Fault Refusal :=
  s.throughPointer p (fun ea => s.setAc (s.loadCell ea))

/-- STOREI (R78): `ptr := Memory.read(operand); Memory.write(ptr, AC)`. -/
def execStorei (p : Addr) (s : State) : Host.Outcome State Fault Refusal :=
  s.throughPointer p (fun ea => s.storeCell ea s.ac)

/-- CLEAR (R79): `AC := 0`; the operand bits are ignored. -/
def execClear (_x : BitVec 12) (s : State) : Host.Outcome State Fault Refusal := .next (s.setAc 0x0000#16)

end Sys2Proof.Machine
end

