-- ==== Sys2Proof/Machine/System.lean ====
section
/-! DEFINITION. INPUT, OUTPUT, HALT, NOP_F (spec/44_io_system.md): the Execute part of each, on the state Fetch left. -/

namespace Sys2Proof.Machine

/-- INPUT (R105): `AC <- In()`, the next word of the input stream, consumed. With no word available the step is not
enabled (40_cycle.md R71) and `step` never gets here, since it decides the hold before Fetch; asked all the same, INPUT
waits: the environment has a turn and nothing else changes (log entry 6). -/
def execInput (_x : BitVec 12) (s : State) : Host.Outcome State Fault Refusal :=
  match s.input with
  | w :: ws => .next ((s.setInput ws).setAc w)
  | [] => .next s.awaitInput

/-- OUTPUT (R106): `Out(AC, mode)`, the mode by R110 at this moment. -/
def execOutput (_x : BitVec 12) (s : State) : Host.Outcome State Fault Refusal := .next (s.emit s.ac s.outputMode)

/-- HALT (R107): `run <- Halted`. -/
def execHalt (_x : BitVec 12) (s : State) : Host.Outcome State Fault Refusal := .next (s.setRun .halted)

/-- NOP_F (R108): nothing. -/
def execNopF (_x : BitVec 12) (s : State) : Host.Outcome State Fault Refusal := .next s

end Sys2Proof.Machine
end

