-- ==== Sys2Proof/Machine/Dispatch.lean ====
section
/-! DEFINITION. Execute's dispatch (spec/40_cycle.md R68): each instruction to its one rule. -/

namespace Sys2Proof.Machine

def exec (i : Instr) (s : State) : Host.Outcome State Fault Refusal :=
  match i with
  | .jns a => Sys2Proof.Machine.execJns a s
  | .load a => Sys2Proof.Machine.execLoad a s
  | .store a => Sys2Proof.Machine.execStore a s
  | .add a => Sys2Proof.Machine.execAdd a s
  | .subt a => Sys2Proof.Machine.execSubt a s
  | .input x => Sys2Proof.Machine.execInput x s
  | .output x => Sys2Proof.Machine.execOutput x s
  | .halt x => Sys2Proof.Machine.execHalt x s
  | .skipcond c x => Sys2Proof.Machine.execSkipcond c x s
  | .jump a => Sys2Proof.Machine.execJump a s
  | .clear x => Sys2Proof.Machine.execClear x s
  | .addi p => Sys2Proof.Machine.execAddi p s
  | .jumpi p => Sys2Proof.Machine.execJumpi p s
  | .loadi p => Sys2Proof.Machine.execLoadi p s
  | .storei p => Sys2Proof.Machine.execStorei p s
  | .nopF x => Sys2Proof.Machine.execNopF x s

end Sys2Proof.Machine
end

