-- ==== Sys2Proof/Machine/Cycle.lean ====
section
/-! DEFINITION. The cycle (spec/40_cycle.md R65, R69 to R71): what one step does, and the placing of an instruction where
the next step fetches it. Step.lean only calls these. -/

namespace Sys2Proof.Machine

/-- One step. Halted: no step is taken and nothing changes (R70). Held at INPUT with no word: no part of Fetch is
committed, the environment has its turn (R71). Otherwise Fetch, Decode, Execute as one transition (R65). -/
def State.cycle (s : State) : Host.Outcome State Fault Refusal :=
  match s.run with
  | .halted => .next s
  | .running => if s.held then .next s.awaitInput else exec (decode s.fetch.ir) s.fetch

/-- `s` with the word `w` stored where the next step fetches, and what that step needs to be enabled (R65): the run state
Running, and, where the instruction is INPUT and the stream is empty, one word of input (log entry 7). -/
def State.placeWord (s : State) (w : Word) : State :=
  let t := (s.storeCell (addrBits s.pc) w).setRun .running
  if t.held then t.setInput [0x0000#16] else t

end Sys2Proof.Machine
end

