-- ==== Sys2Proof/Machine/Step.lean ====
section
/-! DEFINITION. One step of the machine, and the host's placing of an instruction, both by the operations of
Cycle.lean. -/

namespace Sys2Proof.Machine

/-- One step of the machine (spec/40_cycle.md R65). -/
def step (s : State) : Host.Outcome State Fault Refusal := s.cycle

/-- `s` with the instruction whose bits are `w` where the next step fetches it. Every instruction is one word of 16 bits
(30_encoding.md R50), and bits above `_nbits` are 0. -/
def State.withFetchWord (s : State) (_nbits w : Nat) : State := s.placeWord (BitVec.ofNat 16 w)

end Sys2Proof.Machine
end

