-- ==== Sys2Proof/Machine/Console.lean ====
section
/-! DEFINITION. The console adapter, outside the core (spec/44_io_system.md R111, R112): an output element as text, and a
line of text as the word `In()` returns. Characters are given by their codes' `Char`. -/

namespace Sys2Proof.Machine

/-- The decimal numeral of an integer, with a minus sign where it is negative. -/
def decimalNumeral (n : Int) : List Char :=
  if n < 0 then '-' :: Nat.toDigits 10 n.natAbs else Nat.toDigits 10 n.natAbs

/-- Rendering (R111): DEC, the numeral of `s(v)` and then `DEC_SUFFIX`; ASCII, the one character with code `u(v[7:0])`. -/
def render : Word × OutputMode → List Char
  | (v, .dec) => decimalNumeral v.toInt ++ Config.decSuffix
  | (v, .ascii) => [Char.ofNat (v.extractLsb' 0 8).toNat]

/-- The console's text, a function of the output stream alone (R109, R111). -/
def State.consoleText (s : State) : List Char := s.output.flatMap render

/-- The word delivered for a parsed integer (R112): its Word where it fits in −32768 to 32767, else 0x0000, the same as
for a line that does not parse (60_exceptions.md R123). -/
def wordOfParsed : Option Int → Word
  | none => 0x0000#16
  | some n => if -32768 ≤ n ∧ n ≤ 32767 then BitVec.ofInt 16 n else 0x0000#16

/-- The word the adapter delivers for a line of text (R112). -/
def adapterWord (line : List Char) : Word := wordOfParsed (Config.parseLine line)

/-- The environment supplies a line at the console during the run (70_reset_and_hazards.md R149): its word joins the
input stream. -/
def State.supplyLine (s : State) (line : List Char) : State :=
  { s with input := s.input ++ [adapterWord line] }

end Sys2Proof.Machine
end

