-- ==== Sys2Proof/Machine/Boot.lean ====
section
/-! DEFINITION. Reset as the construction of the machine (spec/70_reset_and_hazards.md R140, R141), and the loader as
far as the spec describes it (20_memory.md R36, R47; 60_exceptions.md R125). -/

namespace Sys2Proof.Machine

/-- `LoadError` (60_exceptions.md R121, R125): fatal before the run, the core never takes a step. -/
inductive LoadError where
  | missingFile
  | oddByteCount
  | malformedHex
  | imageTooLong
deriving DecidableEq, Repr

/-- Where an image comes from (70_reset_and_hazards.md R149). -/
inductive ImageSource where
  | literal (words : List Word)
  | binary (bytes : List Byte)
  | hexText (text : List Char)
  | missing
deriving DecidableEq, Repr

/-- "big-endian 16-bit word pairs" (20_memory.md R36): `b0 ++ b1`; an odd count is a load error. -/
def wordsOfBytes : List Byte → Except LoadError (List Word)
  | [] => .ok []
  | [_] => .error .oddByteCount
  | b0 :: b1 :: bs =>
    match wordsOfBytes bs with
    | .ok ws => .ok ((b0 ++ b1) :: ws)
    | .error e => .error e

/-- The words a source stands for (R149). -/
def ImageSource.words : ImageSource → Except LoadError (List Word)
  | .literal ws => .ok ws
  | .binary bs => wordsOfBytes bs
  | .hexText cs =>
    match Config.hexBytes cs with
    | some bs => wordsOfBytes bs
    | none => .error .malformedHex
  | .missing => .error .missingFile

/-- The reset sequence of R141: zeroed memory, the image at cells 0 upward, the registers of 10_state.md R22, the
configuration fixed. An image of more than 4096 words never runs (R47). -/
def boot (l : Launch) : Except LoadError State :=
  if l.wf then
    .ok { State.reset with
          pc := l.entryPc
          mem := Memory.loadFrom [] 0 l.image
          params := l.params }
  else .error .imageTooLong

/-- A machine built from a source (R141): the loader's failure stops the sequence. -/
def bootFrom (params : Params) (entryPc : Word) (src : ImageSource) : Except LoadError State :=
  match src.words with
  | .ok ws => boot { params := params, entryPc := entryPc, image := ws }
  | .error e => .error e

end Sys2Proof.Machine
end

