-- ==== Sys2Proof/Machine/Bus.lean ====
section
/-! DEFINITION. The memory transactions of a step, in order (spec/20_memory.md R46, R48): what the core presents on the
memory interface and what the memory returns. -/

namespace Sys2Proof.Machine

/-- One transaction (R46): a read of `mem_addr` with the word returned on `mem_rdata`, or a write of `mem_wdata`. -/
inductive Transaction where
  | read (addr : Addr) (rdata : Word)
  | write (addr : Addr) (wdata : Word)
deriving DecidableEq, Repr

/-- `R(a)` on a state: the word returned is the cell's. -/
def State.busRead (s : State) (a : Addr) : Transaction := .read a (s.loadCell a)

/-- The transactions of an access through the pointer in cell `p`: `R(p)`, then `k` at the effective address; the first
alone where the pointer raises the fault (41_data_transfer.md R80). -/
def State.busThroughPointer (s : State) (p : Addr) (k : Addr → Transaction) : List Transaction :=
  s.busRead p :: ((effAddr s.params.ptrPolicy (s.pointer p)).map k).toList

/-- What Execute adds after the fetch read, the table of R48, on the state Fetch left. -/
def execTransactions (i : Instr) (s : State) : List Transaction :=
  match i with
  | .jns a => [.write a s.pc]
  | .load a | .add a | .subt a | .jumpi a => [s.busRead a]
  | .store a => [.write a s.ac]
  | .addi p | .loadi p => s.busThroughPointer p s.busRead
  | .storei p => s.busThroughPointer p (fun ea => .write ea s.ac)
  | .output _ =>
    match s.params.outputModeSource with
    | .startup => []
    | .cell0x010 => [s.busRead modeCell]
  | .input _ | .halt _ | .skipcond _ _ | .jump _ | .clear _ | .nopF _ => []

/-- The transactions of the next step: the fetch read, then Execute's; none while halted or held (R46, R70). -/
def State.transactions (s : State) : List Transaction :=
  match s.run with
  | .halted => []
  | .running =>
    if s.held then []
    else s.busRead (addrBits s.pc) :: execTransactions (decode s.nextWord) s.fetch

/-- What one transaction does to the memory: a read nothing (R32), a write its cell (R33). -/
def Transaction.apply (m : Memory) : Transaction → Memory
  | .read _ _ => m
  | .write a v => m.write a v

/-- A memory after a list of transactions, in order. -/
def Memory.replay (m : Memory) (ts : List Transaction) : Memory := ts.foldl Transaction.apply m

/-- The transaction is a write. -/
def Transaction.isWrite : Transaction → Bool
  | .read _ _ => false
  | .write _ _ => true

/-- A read returns what memory `m` holds; a write returns nothing. -/
def Transaction.agreesWith (m : Memory) : Transaction → Bool
  | .read a v => decide (m.read a = v)
  | .write _ _ => true

end Sys2Proof.Machine
end

