-- ==== Sys2Proof/Safety.lean ====
section
/-! DEFINITION. The terms the claims are stated in: the frames of the instructions, the invariant every step keeps, and
which states a program cannot tell apart. -/

namespace Sys2Proof.Machine

/-- A run has ended normally exactly when the machine is Halted (spec/70_reset_and_hazards.md R148); a fault and a hold
are not ended runs. -/
def State.endedNormally (s : State) : Prop := s.run = .halted

/-- Every byte of memory reads as before. -/
def SameBytes (m m' : Memory) : Prop := ∀ n, m'.readByte n = m.readByte n

/-- Every byte of memory outside cell `a` reads as before. -/
def SameBytesOutside (a : Addr) (m m' : Memory) : Prop :=
  ∀ n, n ≠ hiByteOf a → n ≠ loByteOf a → m'.readByte n = m.readByte n

/-- The streams, the configuration and the environment's counter are as before. -/
def SameSurroundings (s t : State) : Prop :=
  t.input = s.input ∧ t.output = s.output ∧ t.params = s.params ∧ t.envClock = s.envClock

/-- IR, MAR, MBR are as before: the registers a program cannot read (10_state.md R16). -/
def SameStaging (s t : State) : Prop := t.ir = s.ir ∧ t.mar = s.mar ∧ t.mbr = s.mbr

/-- The frame of an instruction that writes AC alone. -/
def OnlyAcChanges (s t : State) : Prop :=
  t.pc = s.pc ∧ SameStaging s t ∧ t.run = s.run ∧ SameBytes s.mem t.mem ∧ SameSurroundings s t

/-- The frame of an instruction that writes PC alone. -/
def OnlyPcChanges (s t : State) : Prop :=
  t.ac = s.ac ∧ SameStaging s t ∧ t.run = s.run ∧ SameBytes s.mem t.mem ∧ SameSurroundings s t

/-- The frame of an instruction that writes cell `a` alone. -/
def OnlyCellChanges (a : Addr) (s t : State) : Prop :=
  t.ac = s.ac ∧ t.pc = s.pc ∧ SameStaging s t ∧ t.run = s.run ∧ SameBytesOutside a s.mem t.mem ∧ SameSurroundings s t

/-- The cell an instruction stores to, on the state Fetch left, computed as its meaning computes it; none where it stores
nothing (10_state.md R23). -/
def storedCell (i : Instr) (s : State) : Option Addr :=
  match i with
  | .jns a => some a
  | .store a => some a
  | .storei p => effAddr s.params.ptrPolicy (s.pointer p)
  | .load _ | .add _ | .subt _ | .input _ | .output _ | .halt _ | .skipcond _ _ => none
  | .jump _ | .clear _ | .addi _ | .jumpi _ | .loadi _ | .nopF _ => none

/-- The invariant of the machine: memory in its one canonical form (so equal memories are equal data), MAR inside 0x0000
to 0x0FFF (10_state.md R14), and Halted only with a HALT word in IR (R17: "reached only by the HALT opcode"). -/
def State.Inv (s : State) : Prop :=
  s.mem.wf ∧ s.mar.toNat < 4096 ∧ (s.run = .halted → opcodeOf s.ir = 0x7#4)

/-- SKIPCOND's condition holds of AC (43_control.md R96): the signed comparisons of `s(AC)` with 0; 11 holds of nothing. -/
def SkipTaken (c : SkipTest) (ac : Word) : Prop :=
  (c = .negative ∧ ac.toInt < 0) ∨ (c = .zero ∧ ac.toInt = 0) ∨ (c = .positive ∧ 0 < ac.toInt)

/-- The hardware's own state, the tuple of 10_state.md R10, is as before. -/
def SameHardware (s t : State) : Prop :=
  t.ac = s.ac ∧ t.pc = s.pc ∧ SameStaging s t ∧ t.run = s.run ∧ t.mem = s.mem

/-- The next step is an INPUT with no word available (40_cycle.md R71), said in the rule's own terms. -/
def WaitsForInput (s : State) : Prop := (∃ x, decode s.nextWord = .input x) ∧ s.input = []

/-- Two states that differ at most in IR, MAR and MBR, which no later step depends on (10_state.md R13 to R16). -/
def SameButStaging (s t : State) : Prop :=
  t.ac = s.ac ∧ t.pc = s.pc ∧ t.run = s.run ∧ t.mem = s.mem ∧ SameSurroundings s t

/-- Two outcomes no program tells apart: the same kind, with states alike but for IR, MAR and MBR, or the same fault. -/
def SameOutcomeButStaging :
    Host.Outcome State Fault Refusal → Host.Outcome State Fault Refusal → Prop
  | .next s, .next t => SameButStaging s t
  | .fault f, .fault g => g = f
  | .refused r, .refused q => q = r
  | _, _ => False

end Sys2Proof.Machine
end

