-- ==== Sys2Proof/Certificates/Slice0/Obligations.lean ====
section
/-! DEFINITION. The statements for the provers, from the numbered rules of spec/. Each docstring names its rule; where a
clause rests on a choice the spec marks as its own, the docstring says so. -/

open Sys2Proof Sys2Proof.Machine

/-! ### Encoding (30_encoding.md) -/

/-- R51: the opcode and the operand are the slices `(IR >> 12) & 0xF`, the same for an arithmetic shift, and `IR & 0xFFF`;
together they are the whole word. -/
def Obligations.FieldsAreTheSlicesOfTheWord : Prop :=
  ∀ w : Word,
    (opcodeOf w).setWidth 16 = (w >>> 12) &&& 0x000F#16 ∧
    (opcodeOf w).setWidth 16 = (w.sshiftRight 12) &&& 0x000F#16 ∧
    (operandOf w).setWidth 16 = w &&& 0x0FFF#16 ∧
    opcodeOf w ++ operandOf w = w

/-- R54: every word matches exactly one row of the opcode map, the row of the instruction it decodes to. -/
def Obligations.EveryWordMatchesOneTableRow : Prop :=
  ∀ w : Word, rowsOf w = [(decode w).mnemonic]

/-- R60: encoding followed by decoding gives the instruction back, for every instruction and every operand. -/
def Obligations.DecodeOfEncodeIsTheInstruction : Prop :=
  ∀ i : Instr, decode (encode i) = i

/-- R60: decoding followed by encoding gives the word back, and the word's value is `k * 4096 + n`. -/
def Obligations.EncodeOfDecodeIsTheWord : Prop :=
  (∀ w : Word, encode (decode w) = w) ∧
  ∀ i : Instr, (encode i).toNat = i.opcode.toNat * 4096 + i.operand.toNat

/-- R60, R51: two numbers assemble to a word exactly when they fit their fields, and that word decodes to an instruction
with those two numbers. -/
def Obligations.RawFieldsAssembleWhenTheyFit : Prop :=
  ∀ r : RawInstr,
    (r.opcode < 16 ∧ r.operand < 4096 →
      ∃ w, r.assemble = some w ∧ w.toNat = r.opcode * 4096 + r.operand ∧
        (decode w).opcode.toNat = r.opcode ∧ (decode w).operand.toNat = r.operand) ∧
    (16 ≤ r.opcode ∨ 4096 ≤ r.operand → r.assemble = none)

/-- R55: two words of INPUT, OUTPUT, HALT, CLEAR or NOP_F that differ in the twelve low bits, and two words of SKIPCOND
that differ in the ten low bits, do the same. -/
def Obligations.IgnoredBitsMakeNoDifference : Prop :=
  ∀ (w v : Word) (s : State), opcodeOf w = opcodeOf v →
    opcodeOf w ∈ [0x5#4, 0x6#4, 0x7#4, 0xA#4, 0xF#4] ∨ (opcodeOf w = 0x8#4 ∧ condOf w = condOf v) →
    exec (decode w) s = exec (decode v) s

/-- R56: no word is refused; opcode 0xF and SKIPCOND with condition 11 are no-operations whose step still performs
Fetch, so MAR, IR and PC change as in every step. -/
def Obligations.ReservedEncodingsAreNoOps : Prop :=
  (∀ (s : State) (r : Refusal), step s ≠ .refused r) ∧
  ∀ s : State, s.run = .running →
    opcodeOf s.nextWord = 0xF#4 ∨ (opcodeOf s.nextWord = 0x8#4 ∧ condOf s.nextWord = 0b11#2) →
    step s = .next { s with mar := s.pc &&& 0x0FFF#16, ir := s.nextWord, pc := s.pc + 0x0001#16 }

/-- A sanity check of decoding on ten words: eight of 95_test_vectors.md's decode table, and 0x3005 (V-ADD-1) and 0x7FFF
(V-HALT-2), which R54's opcode map decodes; one or more for every family. -/
def Obligations.SampleWordsDecodeAsTheSpecSays : Prop :=
  decode 0x0000#16 = .jns 0x000#12 ∧ decode 0x1004#16 = .load 0x004#12 ∧
  decode 0x8400#16 = .skipcond .zero 0x000#10 ∧ decode 0x8BFF#16 = .skipcond .positive 0x3FF#10 ∧
  decode 0x8C00#16 = .skipcond .never 0x000#10 ∧ decode 0x9FFF#16 = .jump 0xFFF#12 ∧
  decode 0xC006#16 = .jumpi 0x006#12 ∧ decode 0xFFFF#16 = .nopF 0xFFF#12 ∧
  decode 0x3005#16 = .add 0x005#12 ∧ decode 0x7FFF#16 = .halt 0xFFF#12

/-! ### The step (40_cycle.md) -/

/-- R66: Fetch writes MAR, IR and PC and nothing else; PC wraps at 2^16 (the spec's own decision D1). -/
def Obligations.FetchWritesMarIrAndPc : Prop :=
  ∀ s : State, s.fetch =
    { s with
      mar := s.pc &&& 0x0FFF#16
      ir := s.mem.read (BitVec.ofNat 12 (s.pc.toNat % 4096))
      pc := BitVec.ofNat 16 ((s.pc.toNat + 1) % 65536) }

/-- R65, R67, R68: a running machine that does not wait for input runs the instruction its next word decodes to, on the
state Fetch left; every decoded instruction is well formed. -/
def Obligations.StepRunsTheDecodedInstruction : Prop :=
  ∀ s : State, s.run = .running → ¬ WaitsForInput s →
    (decode s.nextWord).wf = true ∧
    step s = exec (decode s.nextWord)
      { s with mar := s.pc &&& 0x0FFF#16, ir := s.nextWord, pc := s.pc + 0x0001#16 }

/-- R70: a halted machine makes no transaction and nothing in it changes, whatever input is supplied, for any number of
steps, and only a HALT step makes a running machine halted; that a HALT step does halt is R107. R70 says that no step is
taken: that `step` then answers the same state is the model's choice (DESIGN CHOICE, log entry 8). -/
def Obligations.HaltedIsTerminalAndOnlyHaltReachesIt : Prop :=
  (∀ s : State, s.run = .halted →
    s.transactions = [] ∧ (∀ ws, step (s.setInput ws) = .next (s.setInput ws)) ∧
    ∀ k, Host.Core.run core k s = .next s) ∧
  ∀ s t : State, s.run = .running → step s = .next t →
    (t.run = .halted ↔ ∃ x, decode s.nextWord = .halt x)

/-- R71: an INPUT with no word available is held: no register, no cell, no output and no run state changes, no memory
transaction is made, and at most one word arrives. Holding before Fetch is the spec's own decision D9; that the
environment's turn is a step of the model is the model's choice (log entry 2). -/
def Obligations.HeldInputChangesNoHardwareState : Prop :=
  ∀ s : State, s.run = .running → WaitsForInput s →
    s.transactions = [] ∧
    ∃ t, step s = .next t ∧ SameHardware s t ∧ t.output = s.output ∧ t.params = s.params ∧ t.input.length ≤ 1

/-- R71: what follows a held step: either the machine waits still, or a word came and the next step is the whole INPUT
step with that word (the environment's turn as a step is the model's choice, log entry 2). -/
def Obligations.HeldInputGoesOnWhenAWordComes : Prop :=
  ∀ s : State, s.run = .running → WaitsForInput s →
    ∃ t, step s = .next t ∧
      (WaitsForInput t ∨
        ∃ w u, t.input = [w] ∧ step t = .next u ∧ u.ac = w ∧ u.input = [] ∧ u.pc = s.pc + 0x0001#16 ∧
          u.ir = s.nextWord ∧ u.mar = s.pc &&& 0x0FFF#16 ∧ u.mbr = s.mbr ∧ u.mem = s.mem ∧ u.run = .running ∧
          u.output = s.output)

/-- R122: the only fault of a step: raised under `PTR_POLICY = fault` by ADDI, LOADI and STOREI, exactly when the
pointer word has a nonzero bit above bit 11, and it carries that pointer. -/
def Obligations.OnlyABadPointerFaults : Prop :=
  ∀ (s : State) (f : Fault), step s = .fault f ↔
    s.run = .running ∧ s.params.ptrPolicy = .fault ∧
    ∃ p, (decode s.nextWord = .addi p ∨ decode s.nextWord = .loadi p ∨ decode s.nextWord = .storei p) ∧
      (s.loadCell p).extractLsb' 12 4 ≠ 0x0#4 ∧ f = .addressOutOfRange (s.loadCell p)

/-! ### Whole-machine rules -/

/-- The invariant (memory canonical, MAR below 0x1000, Halted only with a HALT word in IR) is kept by every step, from
every state that meets it (10_state.md R14, R17, R20). -/
def Obligations.EveryStepKeepsTheInvariant : Prop :=
  ∀ s t : State, s.Inv → step s = .next t → t.Inv

/-- The machine right after reset meets the invariant. -/
def Obligations.ResetMeetsTheInvariant : Prop := State.reset.Inv

/-- Every machine a launch builds meets the invariant, whatever its image and entry point. -/
def Obligations.EveryLaunchMeetsTheInvariant : Prop :=
  ∀ (l : Launch) (s : State), boot l = .ok s → s.Inv

/-- R22: the state at reset with the default parameters and the empty image. -/
def Obligations.ResetHoldsTheValuesOfTheTable : Prop :=
  State.reset.ac = 0x0000#16 ∧ State.reset.pc = 0x0000#16 ∧ State.reset.ir = 0x0000#16 ∧
  State.reset.mar = 0x0000#16 ∧ State.reset.mbr = 0x0000#16 ∧ State.reset.run = .running ∧
  State.reset.output = [] ∧
  State.reset.params = { outputMode := .dec, outputModeSource := .startup, ptrPolicy := .mask } ∧
  ∀ a, State.reset.loadCell a = 0x0000#16

/-- R22, R47, R125, R141: a launch whose image fits starts in the state of the table, with the image from cell 0 upward
and zeros above it; one that does not fit never starts. -/
def Obligations.LaunchLoadsTheImageOrFails : Prop :=
  ∀ l : Launch,
    (l.image.length ≤ 4096 →
      ∃ s, boot l = .ok s ∧ s.ac = 0x0000#16 ∧ s.pc = l.entryPc ∧ s.ir = 0x0000#16 ∧ s.mar = 0x0000#16 ∧
        s.mbr = 0x0000#16 ∧ s.run = .running ∧ s.output = [] ∧ s.params = l.params ∧
        ∀ a : Addr, s.loadCell a = l.image.getD a.toNat 0x0000#16) ∧
    (4096 < l.image.length → boot l = .error .imageTooLong)

/-- R36: a binary file is read as big-endian pairs, and an odd byte count is a load error. -/
def Obligations.BinaryFilesAreBigEndianPairs : Prop :=
  (∀ ws : List Word,
    wordsOfBytes (ws.flatMap (fun w => [w.extractLsb' 8 8, w.extractLsb' 0 8])) = .ok ws) ∧
  ∀ bs : List Byte, bs.length % 2 = 1 → wordsOfBytes bs = .error .oddByteCount

/-- R141 (5): no step changes the configuration. -/
def Obligations.NoStepChangesTheConfiguration : Prop :=
  ∀ s t : State, step s = .next t → t.params = s.params

/-- R14, R15: a step that is taken leaves in MAR the address fetched from and MBR as it was, except JnS, which leaves its
operand in MAR and the return address in MBR (decision D2 of the spec). -/
def Obligations.OnlyJnsWritesMarAndMbrBesidesFetch : Prop :=
  ∀ s t : State, s.run = .running → ¬ WaitsForInput s → step s = .next t →
    (∀ a, decode s.nextWord = .jns a → t.mar = a.setWidth 16 ∧ t.mbr = s.pc + 0x0001#16) ∧
    ((∀ a, decode s.nextWord ≠ .jns a) → t.mar = s.pc &&& 0x0FFF#16 ∧ t.mbr = s.mbr)

/-- R109: the output stream only grows, by one element at its end, and only at a running OUTPUT. -/
def Obligations.OnlyOutputAppendsToTheOutputStream : Prop :=
  ∀ s t : State, step s = .next t →
    (s.run = .running ∧ (∃ x, decode s.nextWord = .output x) → t.output = s.output ++ [(s.ac, s.outputMode)]) ∧
    (¬ (s.run = .running ∧ ∃ x, decode s.nextWord = .output x) → t.output = s.output)

/-- R105, R109: a word of input is consumed by an INPUT and by nothing else, the first one each time. -/
def Obligations.OnlyInputConsumesTheInputStream : Prop :=
  ∀ (s t : State) (w : Word) (ws : List Word), s.input = w :: ws → step s = .next t →
    (s.run = .running ∧ (∃ x, decode s.nextWord = .input x) → t.input = ws ∧ t.ac = w) ∧
    (¬ (s.run = .running ∧ ∃ x, decode s.nextWord = .input x) → t.input = w :: ws)

/-- R20, R23: a step changes no byte of memory outside the cell its instruction stores to, and none at all where it
stores nothing, waits or is halted. -/
def Obligations.StepsWriteNoByteOutsideTheStoredCell : Prop :=
  ∀ s t : State, step s = .next t → ∀ n : Nat,
    (∀ a, s.run = .running → storedCell (decode s.nextWord) s.fetch = some a → n ≠ hiByteOf a ∧ n ≠ loByteOf a) →
    t.mem.readByte n = s.mem.readByte n

/-- R48: the transactions of a step account for memory: their reads return what memory held, they are at most three, no
two are writes, and the memory after the step is the memory before it with their writes done. -/
def Obligations.TransactionsAccountForMemory : Prop :=
  ∀ s t : State, step s = .next t →
    t.mem = s.mem.replay s.transactions ∧
    (∀ x ∈ s.transactions, x.agreesWith s.mem = true) ∧
    s.transactions.length ≤ 3 ∧
    (s.transactions.filter Transaction.isWrite).length ≤ 1

/-- R13, R14, R15, R16: what a step leaves in IR, MAR and MBR never influences anything else: two states alike but for
those registers step to outcomes alike but for those registers. -/
def Obligations.StagingRegistersNeverInfluenceARun : Prop :=
  ∀ s t : State, SameButStaging s t → SameOutcomeButStaging (step s) (step t)

/-- R44: a word stored to the cell that will be fetched next is what the next step executes. -/
def Obligations.AStoreIsSeenByTheNextFetch : Prop :=
  ∀ (s : State) (a : Addr), s.run = .running → decode s.nextWord = .store a → a = addrBits (s.pc + 0x0001#16) →
    ∃ t, step s = .next t ∧ t.nextWord = s.ac ∧
      (¬ WaitsForInput t → step t = exec (decode s.ac) t.fetch)

/-- R35: the bits of a Word used as an address are its value modulo 4096, so the cell after 0xFFF is cell 0x000. -/
def Obligations.AddressesWrapModulo4096 : Prop :=
  (∀ w : Word, (addrBits w).toNat = w.toNat % 4096) ∧
  ∀ w : Word, (addrBits (w + 0x0001#16)).toNat = ((addrBits w).toNat + 1) % 4096

/-! ### Memory (20_memory.md) -/

/-- R33: a write sets its cell to the whole word and leaves every other cell, and every byte outside the cell, as it
was. -/
def Obligations.AWriteSetsItsCellAndNoOther : Prop :=
  ∀ (m : Memory) (a : Addr) (v : Word),
    (m.write a v).read a = v ∧ (∀ b, b ≠ a → (m.write a v).read b = m.read b) ∧ SameBytesOutside a m (m.write a v)

/-- The canonical form of the model's memory list (log entry 1) is one: two lists in that form that agree on all 4096
cells are equal. -/
def Obligations.MemoriesAlikeOnEveryCellAreEqual : Prop :=
  ∀ m m' : Memory, m.wf → m'.wf → (∀ a, m.read a = m'.read a) → m = m'

/-- R80: the two policies agree on every pointer with zero high bits; under `mask` every pointer gives its low 12 bits;
under `fault` a pointer with a nonzero high bit gives no address. -/
def Obligations.PointerPoliciesGiveTheirAddress : Prop :=
  ∀ ptr : Word,
    effAddr .mask ptr = some (addrBits ptr) ∧
    (ptr.toNat < 4096 → effAddr .fault ptr = effAddr .mask ptr) ∧
    (4096 ≤ ptr.toNat → effAddr .fault ptr = none)

/-! ### The ALU (42_arithmetic.md) -/

/-- R85: the ALU's functions, and exactly one of the three tests holds of any word. -/
def Obligations.AluAddsSubtractsAndTests : Prop :=
  (∀ a b : Word,
    (aluAdd a b).toNat = (a.toNat + b.toNat) % 65536 ∧
    ((aluSub a b).toNat : Int) = ((a.toNat : Int) - b.toNat) % 65536 ∧
    aluSub a b = aluAdd (aluAdd a (~~~b)) 0x0001#16) ∧
  ∀ a : Word,
    (isNeg a = true ↔ a.toInt < 0) ∧ (isZero a = true ↔ a.toInt = 0) ∧ (isPos a = true ↔ 0 < a.toInt) ∧
    (isNeg a).toNat + (isZero a).toNat + (isPos a).toNat = 1

/-- R89: read as signed numbers, sum and difference are exact where they fit and otherwise differ by exactly 65536. -/
def Obligations.SignedResultsAreExactOrOffBy65536 : Prop :=
  ∀ a b : Word,
    (-32768 ≤ a.toInt + b.toInt ∧ a.toInt + b.toInt ≤ 32767 → (aluAdd a b).toInt = a.toInt + b.toInt) ∧
    (32767 < a.toInt + b.toInt → (aluAdd a b).toInt = a.toInt + b.toInt - 65536) ∧
    (a.toInt + b.toInt < -32768 → (aluAdd a b).toInt = a.toInt + b.toInt + 65536) ∧
    (-32768 ≤ a.toInt - b.toInt ∧ a.toInt - b.toInt ≤ 32767 → (aluSub a b).toInt = a.toInt - b.toInt) ∧
    (32767 < a.toInt - b.toInt → (aluSub a b).toInt = a.toInt - b.toInt - 65536) ∧
    (a.toInt - b.toInt < -32768 → (aluSub a b).toInt = a.toInt - b.toInt + 65536)

/-! ### The instructions: encoding, result, frame, completion -/

/-- R75, LOAD. -/
def Obligations.LoadCopiesTheCellToAc : Prop :=
  (∀ a : Addr, decode (0x1#4 ++ a) = .load a) ∧
  ∀ (a : Addr) (s : State), ∃ t, exec (.load a) s = .next t ∧ t.ac = s.loadCell a ∧ OnlyAcChanges s t

/-- R76, STORE. -/
def Obligations.StoreCopiesAcToTheCell : Prop :=
  (∀ a : Addr, decode (0x2#4 ++ a) = .store a) ∧
  ∀ (a : Addr) (s : State), ∃ t, exec (.store a) s = .next t ∧ t.loadCell a = s.ac ∧ OnlyCellChanges a s t

/-- R77, LOADI, under both pointer policies. -/
def Obligations.LoadiCopiesThePointedCellToAc : Prop :=
  (∀ p : Addr, decode (0xD#4 ++ p) = .loadi p) ∧
  (∀ (p : Addr) (s : State), s.params.ptrPolicy = .mask ∨ pointerHigh (s.loadCell p) = 0x0#4 →
    ∃ t, exec (.loadi p) s = .next t ∧ t.ac = s.loadCell (addrBits (s.loadCell p)) ∧ OnlyAcChanges s t) ∧
  ∀ (p : Addr) (s : State), s.params.ptrPolicy = .fault → pointerHigh (s.loadCell p) ≠ 0x0#4 →
    exec (.loadi p) s = .fault (.addressOutOfRange (s.loadCell p))

/-- R78, STOREI, under both pointer policies: the pointer is read before the write. -/
def Obligations.StoreiCopiesAcToThePointedCell : Prop :=
  (∀ p : Addr, decode (0xE#4 ++ p) = .storei p) ∧
  (∀ (p : Addr) (s : State), s.params.ptrPolicy = .mask ∨ pointerHigh (s.loadCell p) = 0x0#4 →
    ∃ t, exec (.storei p) s = .next t ∧ t.loadCell (addrBits (s.loadCell p)) = s.ac ∧
      OnlyCellChanges (addrBits (s.loadCell p)) s t) ∧
  ∀ (p : Addr) (s : State), s.params.ptrPolicy = .fault → pointerHigh (s.loadCell p) ≠ 0x0#4 →
    exec (.storei p) s = .fault (.addressOutOfRange (s.loadCell p))

/-- R79, CLEAR. -/
def Obligations.ClearZeroesAc : Prop :=
  (∀ x : BitVec 12, decode (0xA#4 ++ x) = .clear x) ∧
  ∀ (x : BitVec 12) (s : State),
    execTransactions (.clear x) s = [] ∧ ∃ t, exec (.clear x) s = .next t ∧ t.ac = 0x0000#16 ∧ OnlyAcChanges s t

/-- R86, ADD: the sum modulo 2^16. -/
def Obligations.AddAddsTheCellToAc : Prop :=
  (∀ a : Addr, decode (0x3#4 ++ a) = .add a) ∧
  ∀ (a : Addr) (s : State), ∃ t, exec (.add a) s = .next t ∧
    t.ac.toNat = (s.ac.toNat + (s.loadCell a).toNat) % 65536 ∧ OnlyAcChanges s t

/-- R87, SUBT: the difference modulo 2^16, the cell the subtrahend. -/
def Obligations.SubtSubtractsTheCellFromAc : Prop :=
  (∀ a : Addr, decode (0x4#4 ++ a) = .subt a) ∧
  ∀ (a : Addr) (s : State), ∃ t, exec (.subt a) s = .next t ∧
    (t.ac.toNat : Int) = ((s.ac.toNat : Int) - (s.loadCell a).toNat) % 65536 ∧ OnlyAcChanges s t

/-- R88, ADDI, under both pointer policies. -/
def Obligations.AddiAddsThePointedCellToAc : Prop :=
  (∀ p : Addr, decode (0xB#4 ++ p) = .addi p) ∧
  (∀ (p : Addr) (s : State), s.params.ptrPolicy = .mask ∨ pointerHigh (s.loadCell p) = 0x0#4 →
    ∃ t, exec (.addi p) s = .next t ∧
      t.ac.toNat = (s.ac.toNat + (s.loadCell (addrBits (s.loadCell p))).toNat) % 65536 ∧ OnlyAcChanges s t) ∧
  ∀ (p : Addr) (s : State), s.params.ptrPolicy = .fault → pointerHigh (s.loadCell p) ≠ 0x0#4 →
    exec (.addi p) s = .fault (.addressOutOfRange (s.loadCell p))

/-- R95, JnS: all 16 bits of the post-increment PC are stored, and the new PC is the operand plus one, unmasked. -/
def Obligations.JnsStoresTheReturnAddressAndJumps : Prop :=
  (∀ a : Addr, decode (0x0#4 ++ a) = .jns a) ∧
  ∀ (a : Addr) (s : State), ∃ t, exec (.jns a) s = .next t ∧
    t.mar.toNat = a.toNat ∧ t.mbr = s.pc ∧ t.loadCell a = s.pc ∧ t.pc.toNat = a.toNat + 1 ∧
    t.ac = s.ac ∧ t.ir = s.ir ∧ t.run = s.run ∧ SameBytesOutside a s.mem t.mem ∧ SameSurroundings s t

/-- R96, SKIPCOND: the four conditions, the skip wrapping at 2^16; exactly one of 00, 01, 10 skips; the whole step
advances PC by two when the skip is taken and by one when it is not. -/
def Obligations.SkipcondSkipsWhenItsConditionHolds : Prop :=
  (∀ g : BitVec 10,
    decode (0x8#4 ++ (0b00#2 ++ g)) = .skipcond .negative g ∧ decode (0x8#4 ++ (0b01#2 ++ g)) = .skipcond .zero g ∧
    decode (0x8#4 ++ (0b10#2 ++ g)) = .skipcond .positive g ∧ decode (0x8#4 ++ (0b11#2 ++ g)) = .skipcond .never g) ∧
  (∀ (c : SkipTest) (g : BitVec 10) (s : State), execTransactions (.skipcond c g) s = [] ∧
    ∃ t, exec (.skipcond c g) s = .next t ∧ OnlyPcChanges s t ∧
    (SkipTaken c s.ac → t.pc.toNat = (s.pc.toNat + 1) % 65536) ∧ (¬ SkipTaken c s.ac → t.pc = s.pc)) ∧
  (∀ ac : Word, ∃ c, SkipTaken c ac ∧ ∀ d, SkipTaken d ac → d = c) ∧
  ∀ (s : State) (c : SkipTest) (g : BitVec 10), s.run = .running → decode s.nextWord = .skipcond c g →
    ∃ t, step s = .next t ∧ t.ac = s.ac ∧
      (SkipTaken c s.ac → t.pc = s.pc + 0x0002#16) ∧ (¬ SkipTaken c s.ac → t.pc = s.pc + 0x0001#16)

/-- R97, JUMP: bits 15 to 12 of PC become zero. -/
def Obligations.JumpSetsPcToTheOperand : Prop :=
  (∀ a : Addr, decode (0x9#4 ++ a) = .jump a) ∧
  ∀ (a : Addr) (s : State),
    execTransactions (.jump a) s = [] ∧ ∃ t, exec (.jump a) s = .next t ∧ t.pc.toNat = a.toNat ∧ OnlyPcChanges s t

/-- R98, JUMPI: the whole word of the cell, with one read and under either policy (90_conflicts.md C9). -/
def Obligations.JumpiSetsPcToTheCell : Prop :=
  (∀ p : Addr, decode (0xC#4 ++ p) = .jumpi p) ∧
  ∀ (p : Addr) (s : State), (∃ t, exec (.jumpi p) s = .next t ∧ t.pc = s.loadCell p ∧ OnlyPcChanges s t) ∧
    execTransactions (.jumpi p) s = [.read p (s.loadCell p)]

/-- R105, INPUT: with a word available it goes to AC and is consumed. With none the step is not taken (R71), which the
last clause says as a step of the model in which no register, cell, run state or output changes: that the environment's
turn is a step is the model's choice (DESIGN CHOICE, log entry 2), and that the hold comes before Fetch, so that PC, IR and
MAR are unchanged, is the spec's own decision D9. -/
def Obligations.InputTakesTheNextWord : Prop :=
  (∀ x : BitVec 12, decode (0x5#4 ++ x) = .input x) ∧
  (∀ (x : BitVec 12) (s : State) (w : Word) (ws : List Word), s.input = w :: ws →
    execTransactions (.input x) s = [] ∧
    ∃ t, exec (.input x) s = .next t ∧ t.ac = w ∧ t.input = ws ∧ t.pc = s.pc ∧ SameStaging s t ∧ t.run = s.run ∧
      SameBytes s.mem t.mem ∧ t.output = s.output ∧ t.params = s.params ∧ t.envClock = s.envClock) ∧
  ∀ (x : BitVec 12) (s : State), s.run = .running → decode s.nextWord = .input x → s.input = [] →
    ∃ t, step s = .next t ∧ SameHardware s t ∧ t.output = s.output

/-- R106, OUTPUT: the whole of AC is appended with the mode of R110, evaluated at this moment; nothing else changes. -/
def Obligations.OutputAppendsAcWithTheMode : Prop :=
  (∀ x : BitVec 12, decode (0x6#4 ++ x) = .output x) ∧
  ∀ (x : BitVec 12) (s : State), ∃ t m, exec (.output x) s = .next t ∧ t.output = s.output ++ [(s.ac, m)] ∧
    (s.params.outputModeSource = .startup → m = s.params.outputMode ∧ execTransactions (.output x) s = []) ∧
    (s.params.outputModeSource = .cell0x010 → m = Config.modeOfCell (s.loadCell 0x010#12) ∧
      execTransactions (.output x) s = [.read 0x010#12 (s.loadCell 0x010#12)]) ∧
    t.ac = s.ac ∧ t.pc = s.pc ∧ SameStaging s t ∧ t.run = s.run ∧ SameBytes s.mem t.mem ∧ t.input = s.input ∧
    t.params = s.params ∧ t.envClock = s.envClock

/-- R107, HALT: the run state alone changes, and no other instruction halts. R107 says that no further step is taken:
that `step` of the halted state then answers that state is the model's choice (DESIGN CHOICE, log entry 8). -/
def Obligations.HaltStopsTheMachine : Prop :=
  (∀ x : BitVec 12, decode (0x7#4 ++ x) = .halt x) ∧
  (∀ (x : BitVec 12) (s : State), ∃ t, exec (.halt x) s = .next t ∧ t.endedNormally ∧ step t = .next t ∧
    t.ac = s.ac ∧ t.pc = s.pc ∧ SameStaging s t ∧ SameBytes s.mem t.mem ∧ SameSurroundings s t) ∧
  ∀ (i : Instr) (s t : State), s.run = .running → exec i s = .next t → t.run = .halted → ∃ x, i = .halt x

/-- R108, NOP_F: nothing at all. -/
def Obligations.NopFChangesNothing : Prop :=
  (∀ x : BitVec 12, decode (0xF#4 ++ x) = .nopF x) ∧
  ∀ (x : BitVec 12) (s : State), exec (.nopF x) s = .next s

/-! ### Properties over two steps (95_test_vectors.md part 1, made exact) -/

/-- R75, R76: LOAD a and then STORE b leave in cell b what cell a held, equal addresses included. -/
def Obligations.LoadThenStoreRoundTrips : Prop :=
  ∀ (s : State) (a b : Addr), s.run = .running → decode s.nextWord = .load a →
    decode (s.loadCell (addrBits (s.pc + 0x0001#16))) = .store b →
    ∃ t u, step s = .next t ∧ step t = .next u ∧ u.loadCell b = s.loadCell a ∧ u.pc = s.pc + 0x0002#16

/-- R86, R87: ADD a and then SUBT a give AC back, whatever the cell holds. -/
def Obligations.AddThenSubtRestoresAc : Prop :=
  ∀ (s : State) (a : Addr), s.run = .running → decode s.nextWord = .add a →
    decode (s.loadCell (addrBits (s.pc + 0x0001#16))) = .subt a →
    ∃ t u, step s = .next t ∧ step t = .next u ∧ u.ac = s.ac ∧ u.mem = s.mem ∧ u.pc = s.pc + 0x0002#16

/-- R100: JnS A leaves the return address in cell A and goes on at A + 1; a JUMPI A from any running state whose cell A
still holds it resumes at the cell after the JnS (90_conflicts.md C4). -/
def Obligations.SubroutineReturnsAfterTheCall : Prop :=
  ∀ (s : State) (a : Addr), s.run = .running → decode s.nextWord = .jns a →
    ∃ t, step s = .next t ∧ t.loadCell a = s.pc + 0x0001#16 ∧ t.pc.toNat = a.toNat + 1 ∧
      ∀ u : State, u.run = .running → decode u.nextWord = .jumpi a → u.loadCell a = t.loadCell a →
        ∃ v, step u = .next v ∧ v.pc = s.pc + 0x0001#16

/-! ### The console adapter (44_io_system.md) -/

/-- R112, R123: the word delivered for a parsed integer: its two's complement where it fits, 0x0000 for a line that does
not parse and (the spec's own decision D8) for an integer that does not fit. -/
def Obligations.AdapterDeliversTheIntegerOrZero : Prop :=
  wordOfParsed none = 0x0000#16 ∧
  ∀ n : Int,
    (-32768 ≤ n ∧ n ≤ 32767 → (wordOfParsed (some n)).toInt = n) ∧
    (n < -32768 ∨ 32767 < n → wordOfParsed (some n) = 0x0000#16)

/-- R111: ASCII renders the low 8 bits as one character and nothing else; DEC renders the numeral of the signed value,
which R111 marks as derived, and the open suffix. The form of the text (a list of `Char`, no leading zeros, a minus sign
before a negative numeral) is the model's reading (DEDUCED, log entry 10). -/
def Obligations.RenderingFollowsTheMode : Prop :=
  (∀ v : Word, render (v, .ascii) = [Char.ofNat (v.toNat % 256)]) ∧
  ∀ v : Word,
    (0 ≤ v.toInt → render (v, .dec) = Nat.toDigits 10 v.toNat ++ Config.decSuffix) ∧
    (v.toInt < 0 → render (v, .dec) = '-' :: (Nat.toDigits 10 (65536 - v.toNat) ++ Config.decSuffix))
end

