-- ==== Sys2Proof/Laws/Decode.lean ====
section
/-! SUPPORT. The fields of a word put together from its fields, and what the table's mask selects. -/

namespace Sys2Proof

/-- The opcode of a word put together from an opcode and twelve bits. -/
@[simp] theorem opcodeOf_append (k : BitVec 4) (n : BitVec 12) : opcodeOf (k ++ n) = k := by
  apply BitVec.eq_of_toNat_eq
  have hk := k.isLt
  have hn := n.isLt
  rw [opcodeOf, BitVec.extractLsb'_toNat, BitVec.toNat_append, ← Nat.shiftLeft_add_eq_or_of_lt hn]
  simp only [Nat.shiftRight_eq_div_pow, Nat.shiftLeft_eq]
  omega

/-- The operand of a word put together from an opcode and twelve bits. -/
@[simp] theorem operandOf_append (k : BitVec 4) (n : BitVec 12) : operandOf (k ++ n) = n := by
  apply BitVec.eq_of_toNat_eq
  have hn := n.isLt
  rw [operandOf, BitVec.extractLsb'_toNat, BitVec.toNat_append, ← Nat.shiftLeft_add_eq_or_of_lt hn]
  simp only [Nat.shiftRight_zero, Nat.shiftLeft_eq]
  omega

/-- The condition bits of a word put together as SKIPCOND's sub-format gives them. -/
@[simp] theorem condOf_append (k : BitVec 4) (c : BitVec 2) (g : BitVec 10) : condOf (k ++ (c ++ g)) = c := by
  apply BitVec.eq_of_toNat_eq
  have hn := (c ++ g).isLt
  have hg := g.isLt
  have hc := c.isLt
  simp only [condOf, BitVec.extractLsb'_toNat, BitVec.toNat_append, Nat.shiftRight_eq_div_pow] at *
  rw [← Nat.shiftLeft_add_eq_or_of_lt hg] at *
  rw [← Nat.shiftLeft_add_eq_or_of_lt hn]
  simp only [Nat.shiftLeft_eq]
  omega

/-- The ignored bits of a word put together as SKIPCOND's sub-format gives them. -/
@[simp] theorem skipRestOf_append (k : BitVec 4) (c : BitVec 2) (g : BitVec 10) : skipRestOf (k ++ (c ++ g)) = g := by
  apply BitVec.eq_of_toNat_eq
  have hn := (c ++ g).isLt
  have hg := g.isLt
  have hc := c.isLt
  simp only [skipRestOf, BitVec.extractLsb'_toNat, BitVec.toNat_append, Nat.shiftRight_zero] at *
  rw [← Nat.shiftLeft_add_eq_or_of_lt hg] at *
  rw [← Nat.shiftLeft_add_eq_or_of_lt hn]
  simp only [Nat.shiftLeft_eq]
  omega

/-- A word is its opcode and its operand. -/
theorem opcodeOf_append_operandOf (w : Word) : opcodeOf w ++ operandOf w = w := by
  apply BitVec.eq_of_toNat_eq
  have hw := w.isLt
  have hn := (operandOf w).isLt
  rw [BitVec.toNat_append, ← Nat.shiftLeft_add_eq_or_of_lt hn]
  simp only [opcodeOf, operandOf, BitVec.extractLsb'_toNat, Nat.shiftRight_eq_div_pow, Nat.shiftLeft_eq]
  omega

/-- The operand of a word is its condition bits and the rest. -/
theorem condOf_append_skipRestOf (w : Word) : condOf w ++ skipRestOf w = operandOf w := by
  apply BitVec.eq_of_toNat_eq
  have hw := w.isLt
  have hn := (skipRestOf w).isLt
  rw [BitVec.toNat_append, ← Nat.shiftLeft_add_eq_or_of_lt hn]
  simp only [condOf, skipRestOf, operandOf, BitVec.extractLsb'_toNat, Nat.shiftRight_eq_div_pow, Nat.shiftLeft_eq]
  omega

/-- The mask of every row of R54's table keeps the opcode and clears the rest. -/
theorem and_tableMask (w : Word) : w &&& 0xF000#16 = opcodeOf w ++ 0x000#12 := by
  apply BitVec.eq_of_getLsbD_eq
  intro i hi
  simp only [opcodeOf, BitVec.getLsbD_and, BitVec.getLsbD_append, BitVec.getLsbD_extractLsb']
  interval_cases i <;> simp

@[simp] theorem skipTestOf_code (c : SkipTest) : skipTestOf c.code = c := by cases c <;> rfl

@[simp] theorem code_skipTestOf (c : BitVec 2) : (skipTestOf c).code = c := by
  revert c; decide

/-- Decoding a word put together from a known opcode and its twelve low bits: one arm of R54's table each time. -/
theorem decode_append (k : BitVec 4) (n : BitVec 12) : decode (k ++ n) =
    match k with
    | 0x0#4 => .jns n
    | 0x1#4 => .load n
    | 0x2#4 => .store n
    | 0x3#4 => .add n
    | 0x4#4 => .subt n
    | 0x5#4 => .input n
    | 0x6#4 => .output n
    | 0x7#4 => .halt n
    | 0x8#4 => .skipcond (skipTestOf (condOf (k ++ n))) (skipRestOf (k ++ n))
    | 0x9#4 => .jump n
    | 0xA#4 => .clear n
    | 0xB#4 => .addi n
    | 0xC#4 => .jumpi n
    | 0xD#4 => .loadi n
    | 0xE#4 => .storei n
    | _ => .nopF n := by
  rw [decode, opcodeOf_append, operandOf_append]
  first | done | rfl

/-- Decoding SKIPCOND's sub-format (30_encoding.md R53). -/
theorem decode_skipcond (c : BitVec 2) (g : BitVec 10) :
    decode (0x8#4 ++ (c ++ g)) = .skipcond (skipTestOf c) g := by
  have h := decode_append 0x8#4 (c ++ g)
  simp only [condOf_append, skipRestOf_append] at h
  exact h

/-- Decoding goes by the opcode: the instruction's opcode is the word's. -/
theorem opcode_decode (w : Word) : (decode w).opcode = opcodeOf w := by
  have hw : decode w = decode (opcodeOf w ++ operandOf w) := by rw [opcodeOf_append_operandOf]
  rw [hw, decode_append]
  generalize opcodeOf w = k
  obtain ⟨x, hx⟩ : ∃ x : Fin 16, k = BitVec.ofFin x := ⟨k.toFin, rfl⟩
  subst hx
  fin_cases x <;> rfl

/-- No bit of the twelve low ones is lost: they are the instruction's operand field. -/
theorem operand_decode (w : Word) : (decode w).operand = operandOf w := by
  have hs : (skipTestOf (condOf w)).code ++ skipRestOf w = operandOf w := by
    rw [code_skipTestOf, condOf_append_skipRestOf]
  have hw : decode w = decode (opcodeOf w ++ operandOf w) := by rw [opcodeOf_append_operandOf]
  rw [hw, decode_append, opcodeOf_append_operandOf]
  generalize opcodeOf w = k
  obtain ⟨x, hx⟩ : ∃ x : Fin 16, k = BitVec.ofFin x := ⟨k.toFin, rfl⟩
  subst hx
  fin_cases x <;> first | rfl | exact hs

end Sys2Proof
end

