-- ==== Sys2Proof/Laws/Memory.lean ====
section
/-! SUPPORT. The laws of memory, byte by byte: a byte written reads back, every other byte is as it was, and every
memory operation keeps the canonical form. -/

namespace Sys2Proof.Machine

/-! ### Reading after erasing and inserting -/

@[simp] theorem Memory.readByte_nil (n : Nat) : Memory.readByte [] n = 0x00#8 := rfl

theorem Memory.readByte_cons (c : Host.Cell) (m : Memory) (n : Nat) :
    Memory.readByte (c :: m) n = if c.1 = n then c.2 else Memory.readByte m n := rfl

/-- A byte number no entry carries reads as 0x00. -/
theorem Memory.readByte_of_forall_ne {m : Memory} {n : Nat} (h : ∀ c ∈ m, c.1 ≠ n) : m.readByte n = 0x00#8 := by
  induction m with
  | nil => rfl
  | cons c m ih =>
    rw [Memory.readByte_cons, if_neg (h c (by simp)), ih fun d hd => h d (by simp [hd])]

/-- Erasing keeps every other byte. -/
theorem Memory.readByte_erase_of_ne {n k : Nat} (m : Memory) (h : k ≠ n) : (m.erase n).readByte k = m.readByte k := by
  induction m with
  | nil => rfl
  | cons c m ih =>
    unfold Memory.erase at ih ⊢
    by_cases hc : c.1 = n
    · rw [List.filter_cons_of_neg (by simp [hc]), ih, Memory.readByte_cons, if_neg (by omega)]
    · rw [List.filter_cons_of_pos (by simp [hc]), Memory.readByte_cons, Memory.readByte_cons, ih]

theorem Memory.ne_of_mem_erase {m : Memory} {n : Nat} {c : Host.Cell} (h : c ∈ m.erase n) : c.1 ≠ n := by
  simpa using (List.mem_filter.mp h).2

theorem Memory.mem_of_mem_erase {m : Memory} {n : Nat} {c : Host.Cell} (h : c ∈ m.erase n) : c ∈ m :=
  (List.mem_filter.mp h).1

theorem Memory.mem_insert {c d : Host.Cell} {m : Memory} : d ∈ m.insert c ↔ d = c ∨ d ∈ m := by
  induction m with
  | nil => simp [Memory.insert]
  | cons e m ih =>
    unfold Memory.insert
    split <;> simp [ih, or_left_comm]

/-- Inserting an entry keeps every byte with another number. -/
theorem Memory.readByte_insert_of_ne {n k : Nat} (v : Byte) (m : Memory) (h : k ≠ n) :
    (m.insert (n, v)).readByte k = m.readByte k := by
  induction m with
  | nil => simp [Memory.insert, Memory.readByte_cons, h.symm]
  | cons e m ih =>
    unfold Memory.insert
    split
    · rw [Memory.readByte_cons, if_neg (Ne.symm h)]
    · rw [Memory.readByte_cons, Memory.readByte_cons, ih]

/-- Inserting an entry whose number no other entry carries makes its byte read as its value. -/
theorem Memory.readByte_insert_self {n : Nat} (v : Byte) {m : Memory} (h : ∀ c ∈ m, c.1 ≠ n) :
    (m.insert (n, v)).readByte n = v := by
  induction m with
  | nil => simp [Memory.insert, Memory.readByte_cons]
  | cons e m ih =>
    unfold Memory.insert
    split
    · rw [Memory.readByte_cons, if_pos rfl]
    · rw [Memory.readByte_cons, if_neg (h e (by simp)), ih fun d hd => h d (by simp [hd])]

/-! ### The two laws of a byte write -/

/-- A byte written reads back. -/
@[simp] theorem Memory.readByte_writeByte_self (m : Memory) (n : Nat) (v : Byte) : (m.writeByte n v).readByte n = v := by
  unfold Memory.writeByte
  split
  case isTrue h => rw [h]; exact Memory.readByte_of_forall_ne fun c hc => Memory.ne_of_mem_erase hc
  case isFalse => exact Memory.readByte_insert_self v fun c hc => Memory.ne_of_mem_erase hc

/-- A byte write leaves every other byte as it was. -/
theorem Memory.readByte_writeByte_of_ne {n k : Nat} (m : Memory) (v : Byte) (h : k ≠ n) :
    (m.writeByte n v).readByte k = m.readByte k := by
  unfold Memory.writeByte
  split
  · exact Memory.readByte_erase_of_ne m h
  · rw [Memory.readByte_insert_of_ne v _ h, Memory.readByte_erase_of_ne m h]

/-! ### Cells -/

theorem hiByteOf_ne_loByteOf (a b : Addr) : hiByteOf a ≠ loByteOf b := by
  simp only [hiByteOf, loByteOf]; omega

theorem hiByteOf_inj {a b : Addr} : hiByteOf a = hiByteOf b ↔ a = b := by
  simp only [hiByteOf, ← BitVec.toNat_inj]; omega

theorem loByteOf_inj {a b : Addr} : loByteOf a = loByteOf b ↔ a = b := by
  simp only [loByteOf, ← BitVec.toNat_inj]; omega

/-- The high byte of a cell just written. -/
theorem Memory.readByte_write_hi (m : Memory) (a : Addr) (v : Word) :
    (m.write a v).readByte (hiByteOf a) = v.extractLsb' 8 8 := by
  rw [Memory.write, Memory.readByte_writeByte_of_ne _ _ (hiByteOf_ne_loByteOf a a), Memory.readByte_writeByte_self]

/-- The low byte of a cell just written. -/
theorem Memory.readByte_write_lo (m : Memory) (a : Addr) (v : Word) :
    (m.write a v).readByte (loByteOf a) = v.extractLsb' 0 8 := by
  rw [Memory.write, Memory.readByte_writeByte_self]

/-- A write to a cell leaves every byte outside it as it was. -/
theorem Memory.readByte_write_of_ne {n : Nat} {a : Addr} (m : Memory) (v : Word) (hh : n ≠ hiByteOf a)
    (hl : n ≠ loByteOf a) : (m.write a v).readByte n = m.readByte n := by
  rw [Memory.write, Memory.readByte_writeByte_of_ne _ _ hl, Memory.readByte_writeByte_of_ne _ _ hh]

/-- The two bytes of a word, put together again. -/
theorem hi_append_lo (v : Word) : (v.extractLsb' 8 8 ++ v.extractLsb' 0 8 : Word) = v := by
  apply BitVec.eq_of_toNat_eq
  simp only [BitVec.toNat_append, BitVec.extractLsb'_toNat, ← Nat.shiftLeft_add_eq_or_of_lt (Nat.mod_lt _ (by decide : 0 < 2 ^ 8))]
  have := v.isLt
  simp only [Nat.shiftRight_eq_div_pow, Nat.shiftLeft_eq]
  omega

/-- Every cell of an empty list reads as 0x0000 ("zero-initialized", 10_state.md R20). -/
@[simp] theorem Memory.read_nil (a : Addr) : Memory.read [] a = 0x0000#16 := by simp [Memory.read]

/-! ### The canonical form -/

theorem Memory.wf_nil : Memory.wf [] := ⟨List.Pairwise.nil, by simp⟩

theorem Memory.wf_erase {m : Memory} (h : m.wf) (n : Nat) : (m.erase n).wf :=
  ⟨h.1.filter _, fun c hc => h.2 c (Memory.mem_of_mem_erase hc)⟩

theorem Memory.wf_insert {m : Memory} {c : Host.Cell} (h : m.wf) (hc : c.1 < 8192) (hv : c.2 ≠ 0x00#8)
    (hn : ∀ d ∈ m, d.1 ≠ c.1) : (m.insert c).wf := by
  refine ⟨?_, fun d hd => ?_⟩
  · have hp := h.1
    clear h
    induction m with
    | nil => simp [Memory.insert]
    | cons e m ih =>
      have hne := hn e (by simp)
      obtain ⟨he, hm⟩ := List.pairwise_cons.mp hp
      unfold Memory.insert
      split
      case isTrue hlt =>
        refine List.pairwise_cons.mpr ⟨fun d hd => ?_, hp⟩
        rcases List.mem_cons.mp hd with rfl | hd
        · exact hlt
        · exact Nat.lt_trans hlt (he d hd)
      case isFalse hge =>
        refine List.pairwise_cons.mpr ⟨fun d hd => ?_, ih (fun d hd => hn d (by simp [hd])) hm⟩
        rcases Memory.mem_insert.mp hd with rfl | hd
        · omega
        · exact he d hd
  · rcases Memory.mem_insert.mp hd with rfl | hd
    · exact ⟨hc, hv⟩
    · exact h.2 d hd

/-- A byte write inside the memory keeps the canonical form. -/
theorem Memory.wf_writeByte {m : Memory} (h : m.wf) {n : Nat} (hn : n < 8192) (v : Byte) : (m.writeByte n v).wf := by
  unfold Memory.writeByte
  split
  · exact Memory.wf_erase h n
  · exact Memory.wf_insert (Memory.wf_erase h n) hn ‹_› fun d hd => Memory.ne_of_mem_erase hd

/-- A write to a cell keeps the canonical form: every cell's bytes lie inside the memory. -/
theorem Memory.wf_write {m : Memory} (h : m.wf) (a : Addr) (v : Word) : (m.write a v).wf := by
  have := a.isLt
  exact Memory.wf_writeByte (Memory.wf_writeByte h (by simp only [hiByteOf]; omega) _) (by simp only [loByteOf]; omega) _

/-- Loading an image keeps the canonical form. -/
theorem Memory.wf_loadFrom {m : Memory} (h : m.wf) (n : Nat) (ws : List Word) : (m.loadFrom n ws).wf := by
  induction ws generalizing m n with
  | nil => exact h
  | cons w ws ih => exact ih (Memory.wf_write h _ w) (n + 1)

end Sys2Proof.Machine
end

