-- ==== Sys2Proof/Laws/State.lean ====
section
/-! SUPPORT. One lemma per field of State per update, true by rfl, so that no later proof unfolds a record update. -/

namespace Sys2Proof.Machine

variable (s : State)

/-! setAc -/

@[simp] theorem State.setAc_ac (v : Word) : (s.setAc v).ac = v := rfl
@[simp] theorem State.setAc_pc (v : Word) : (s.setAc v).pc = s.pc := rfl
@[simp] theorem State.setAc_ir (v : Word) : (s.setAc v).ir = s.ir := rfl
@[simp] theorem State.setAc_mar (v : Word) : (s.setAc v).mar = s.mar := rfl
@[simp] theorem State.setAc_mbr (v : Word) : (s.setAc v).mbr = s.mbr := rfl
@[simp] theorem State.setAc_run (v : Word) : (s.setAc v).run = s.run := rfl
@[simp] theorem State.setAc_mem (v : Word) : (s.setAc v).mem = s.mem := rfl
@[simp] theorem State.setAc_input (v : Word) : (s.setAc v).input = s.input := rfl
@[simp] theorem State.setAc_output (v : Word) : (s.setAc v).output = s.output := rfl
@[simp] theorem State.setAc_params (v : Word) : (s.setAc v).params = s.params := rfl
@[simp] theorem State.setAc_envClock (v : Word) : (s.setAc v).envClock = s.envClock := rfl

/-! setPc -/

@[simp] theorem State.setPc_ac (v : Word) : (s.setPc v).ac = s.ac := rfl
@[simp] theorem State.setPc_pc (v : Word) : (s.setPc v).pc = v := rfl
@[simp] theorem State.setPc_ir (v : Word) : (s.setPc v).ir = s.ir := rfl
@[simp] theorem State.setPc_mar (v : Word) : (s.setPc v).mar = s.mar := rfl
@[simp] theorem State.setPc_mbr (v : Word) : (s.setPc v).mbr = s.mbr := rfl
@[simp] theorem State.setPc_run (v : Word) : (s.setPc v).run = s.run := rfl
@[simp] theorem State.setPc_mem (v : Word) : (s.setPc v).mem = s.mem := rfl
@[simp] theorem State.setPc_input (v : Word) : (s.setPc v).input = s.input := rfl
@[simp] theorem State.setPc_output (v : Word) : (s.setPc v).output = s.output := rfl
@[simp] theorem State.setPc_params (v : Word) : (s.setPc v).params = s.params := rfl
@[simp] theorem State.setPc_envClock (v : Word) : (s.setPc v).envClock = s.envClock := rfl

/-! setIr -/

@[simp] theorem State.setIr_ac (v : Word) : (s.setIr v).ac = s.ac := rfl
@[simp] theorem State.setIr_pc (v : Word) : (s.setIr v).pc = s.pc := rfl
@[simp] theorem State.setIr_ir (v : Word) : (s.setIr v).ir = v := rfl
@[simp] theorem State.setIr_mar (v : Word) : (s.setIr v).mar = s.mar := rfl
@[simp] theorem State.setIr_mbr (v : Word) : (s.setIr v).mbr = s.mbr := rfl
@[simp] theorem State.setIr_run (v : Word) : (s.setIr v).run = s.run := rfl
@[simp] theorem State.setIr_mem (v : Word) : (s.setIr v).mem = s.mem := rfl
@[simp] theorem State.setIr_input (v : Word) : (s.setIr v).input = s.input := rfl
@[simp] theorem State.setIr_output (v : Word) : (s.setIr v).output = s.output := rfl
@[simp] theorem State.setIr_params (v : Word) : (s.setIr v).params = s.params := rfl
@[simp] theorem State.setIr_envClock (v : Word) : (s.setIr v).envClock = s.envClock := rfl

/-! setMar -/

@[simp] theorem State.setMar_ac (v : Word) : (s.setMar v).ac = s.ac := rfl
@[simp] theorem State.setMar_pc (v : Word) : (s.setMar v).pc = s.pc := rfl
@[simp] theorem State.setMar_ir (v : Word) : (s.setMar v).ir = s.ir := rfl
@[simp] theorem State.setMar_mar (v : Word) : (s.setMar v).mar = v := rfl
@[simp] theorem State.setMar_mbr (v : Word) : (s.setMar v).mbr = s.mbr := rfl
@[simp] theorem State.setMar_run (v : Word) : (s.setMar v).run = s.run := rfl
@[simp] theorem State.setMar_mem (v : Word) : (s.setMar v).mem = s.mem := rfl
@[simp] theorem State.setMar_input (v : Word) : (s.setMar v).input = s.input := rfl
@[simp] theorem State.setMar_output (v : Word) : (s.setMar v).output = s.output := rfl
@[simp] theorem State.setMar_params (v : Word) : (s.setMar v).params = s.params := rfl
@[simp] theorem State.setMar_envClock (v : Word) : (s.setMar v).envClock = s.envClock := rfl

/-! setMbr -/

@[simp] theorem State.setMbr_ac (v : Word) : (s.setMbr v).ac = s.ac := rfl
@[simp] theorem State.setMbr_pc (v : Word) : (s.setMbr v).pc = s.pc := rfl
@[simp] theorem State.setMbr_ir (v : Word) : (s.setMbr v).ir = s.ir := rfl
@[simp] theorem State.setMbr_mar (v : Word) : (s.setMbr v).mar = s.mar := rfl
@[simp] theorem State.setMbr_mbr (v : Word) : (s.setMbr v).mbr = v := rfl
@[simp] theorem State.setMbr_run (v : Word) : (s.setMbr v).run = s.run := rfl
@[simp] theorem State.setMbr_mem (v : Word) : (s.setMbr v).mem = s.mem := rfl
@[simp] theorem State.setMbr_input (v : Word) : (s.setMbr v).input = s.input := rfl
@[simp] theorem State.setMbr_output (v : Word) : (s.setMbr v).output = s.output := rfl
@[simp] theorem State.setMbr_params (v : Word) : (s.setMbr v).params = s.params := rfl
@[simp] theorem State.setMbr_envClock (v : Word) : (s.setMbr v).envClock = s.envClock := rfl

/-! setRun -/

@[simp] theorem State.setRun_ac (r : RunState) : (s.setRun r).ac = s.ac := rfl
@[simp] theorem State.setRun_pc (r : RunState) : (s.setRun r).pc = s.pc := rfl
@[simp] theorem State.setRun_ir (r : RunState) : (s.setRun r).ir = s.ir := rfl
@[simp] theorem State.setRun_mar (r : RunState) : (s.setRun r).mar = s.mar := rfl
@[simp] theorem State.setRun_mbr (r : RunState) : (s.setRun r).mbr = s.mbr := rfl
@[simp] theorem State.setRun_run (r : RunState) : (s.setRun r).run = r := rfl
@[simp] theorem State.setRun_mem (r : RunState) : (s.setRun r).mem = s.mem := rfl
@[simp] theorem State.setRun_input (r : RunState) : (s.setRun r).input = s.input := rfl
@[simp] theorem State.setRun_output (r : RunState) : (s.setRun r).output = s.output := rfl
@[simp] theorem State.setRun_params (r : RunState) : (s.setRun r).params = s.params := rfl
@[simp] theorem State.setRun_envClock (r : RunState) : (s.setRun r).envClock = s.envClock := rfl

/-! storeCell -/

@[simp] theorem State.storeCell_ac (a : Addr) (v : Word) : (s.storeCell a v).ac = s.ac := rfl
@[simp] theorem State.storeCell_pc (a : Addr) (v : Word) : (s.storeCell a v).pc = s.pc := rfl
@[simp] theorem State.storeCell_ir (a : Addr) (v : Word) : (s.storeCell a v).ir = s.ir := rfl
@[simp] theorem State.storeCell_mar (a : Addr) (v : Word) : (s.storeCell a v).mar = s.mar := rfl
@[simp] theorem State.storeCell_mbr (a : Addr) (v : Word) : (s.storeCell a v).mbr = s.mbr := rfl
@[simp] theorem State.storeCell_run (a : Addr) (v : Word) : (s.storeCell a v).run = s.run := rfl
@[simp] theorem State.storeCell_mem (a : Addr) (v : Word) : (s.storeCell a v).mem = s.mem.write a v := rfl
@[simp] theorem State.storeCell_input (a : Addr) (v : Word) : (s.storeCell a v).input = s.input := rfl
@[simp] theorem State.storeCell_output (a : Addr) (v : Word) : (s.storeCell a v).output = s.output := rfl
@[simp] theorem State.storeCell_params (a : Addr) (v : Word) : (s.storeCell a v).params = s.params := rfl
@[simp] theorem State.storeCell_envClock (a : Addr) (v : Word) : (s.storeCell a v).envClock = s.envClock := rfl

/-! setInput -/

@[simp] theorem State.setInput_ac (ws : List Word) : (s.setInput ws).ac = s.ac := rfl
@[simp] theorem State.setInput_pc (ws : List Word) : (s.setInput ws).pc = s.pc := rfl
@[simp] theorem State.setInput_ir (ws : List Word) : (s.setInput ws).ir = s.ir := rfl
@[simp] theorem State.setInput_mar (ws : List Word) : (s.setInput ws).mar = s.mar := rfl
@[simp] theorem State.setInput_mbr (ws : List Word) : (s.setInput ws).mbr = s.mbr := rfl
@[simp] theorem State.setInput_run (ws : List Word) : (s.setInput ws).run = s.run := rfl
@[simp] theorem State.setInput_mem (ws : List Word) : (s.setInput ws).mem = s.mem := rfl
@[simp] theorem State.setInput_input (ws : List Word) : (s.setInput ws).input = ws := rfl
@[simp] theorem State.setInput_output (ws : List Word) : (s.setInput ws).output = s.output := rfl
@[simp] theorem State.setInput_params (ws : List Word) : (s.setInput ws).params = s.params := rfl
@[simp] theorem State.setInput_envClock (ws : List Word) : (s.setInput ws).envClock = s.envClock := rfl

/-! emit -/

@[simp] theorem State.emit_ac (v : Word) (m : OutputMode) : (s.emit v m).ac = s.ac := rfl
@[simp] theorem State.emit_pc (v : Word) (m : OutputMode) : (s.emit v m).pc = s.pc := rfl
@[simp] theorem State.emit_ir (v : Word) (m : OutputMode) : (s.emit v m).ir = s.ir := rfl
@[simp] theorem State.emit_mar (v : Word) (m : OutputMode) : (s.emit v m).mar = s.mar := rfl
@[simp] theorem State.emit_mbr (v : Word) (m : OutputMode) : (s.emit v m).mbr = s.mbr := rfl
@[simp] theorem State.emit_run (v : Word) (m : OutputMode) : (s.emit v m).run = s.run := rfl
@[simp] theorem State.emit_mem (v : Word) (m : OutputMode) : (s.emit v m).mem = s.mem := rfl
@[simp] theorem State.emit_input (v : Word) (m : OutputMode) : (s.emit v m).input = s.input := rfl
@[simp] theorem State.emit_output (v : Word) (m : OutputMode) : (s.emit v m).output = s.output ++ [(v, m)] := rfl
@[simp] theorem State.emit_params (v : Word) (m : OutputMode) : (s.emit v m).params = s.params := rfl
@[simp] theorem State.emit_envClock (v : Word) (m : OutputMode) : (s.emit v m).envClock = s.envClock := rfl

/-! incPc -/

@[simp] theorem State.incPc_ac : s.incPc.ac = s.ac := rfl
@[simp] theorem State.incPc_pc : s.incPc.pc = s.pc + 0x0001#16 := rfl
@[simp] theorem State.incPc_ir : s.incPc.ir = s.ir := rfl
@[simp] theorem State.incPc_mar : s.incPc.mar = s.mar := rfl
@[simp] theorem State.incPc_mbr : s.incPc.mbr = s.mbr := rfl
@[simp] theorem State.incPc_run : s.incPc.run = s.run := rfl
@[simp] theorem State.incPc_mem : s.incPc.mem = s.mem := rfl
@[simp] theorem State.incPc_input : s.incPc.input = s.input := rfl
@[simp] theorem State.incPc_output : s.incPc.output = s.output := rfl
@[simp] theorem State.incPc_params : s.incPc.params = s.params := rfl
@[simp] theorem State.incPc_envClock : s.incPc.envClock = s.envClock := rfl

/-! fetch -/

@[simp] theorem State.fetch_ac : s.fetch.ac = s.ac := rfl
@[simp] theorem State.fetch_pc : s.fetch.pc = s.pc + 0x0001#16 := rfl
@[simp] theorem State.fetch_mar : s.fetch.mar = zextAddr (addrBits s.pc) := rfl
@[simp] theorem State.fetch_mbr : s.fetch.mbr = s.mbr := rfl
@[simp] theorem State.fetch_run : s.fetch.run = s.run := rfl
@[simp] theorem State.fetch_mem : s.fetch.mem = s.mem := rfl
@[simp] theorem State.fetch_input : s.fetch.input = s.input := rfl
@[simp] theorem State.fetch_output : s.fetch.output = s.output := rfl
@[simp] theorem State.fetch_params : s.fetch.params = s.params := rfl
@[simp] theorem State.fetch_envClock : s.fetch.envClock = s.envClock := rfl

/-! awaitInput -/

@[simp] theorem State.awaitInput_ac : s.awaitInput.ac = s.ac := rfl
@[simp] theorem State.awaitInput_pc : s.awaitInput.pc = s.pc := rfl
@[simp] theorem State.awaitInput_ir : s.awaitInput.ir = s.ir := rfl
@[simp] theorem State.awaitInput_mar : s.awaitInput.mar = s.mar := rfl
@[simp] theorem State.awaitInput_mbr : s.awaitInput.mbr = s.mbr := rfl
@[simp] theorem State.awaitInput_run : s.awaitInput.run = s.run := rfl
@[simp] theorem State.awaitInput_mem : s.awaitInput.mem = s.mem := rfl
@[simp] theorem State.awaitInput_input : s.awaitInput.input = s.input ++ (Config.arrival s.envClock).toList := rfl
@[simp] theorem State.awaitInput_output : s.awaitInput.output = s.output := rfl
@[simp] theorem State.awaitInput_params : s.awaitInput.params = s.params := rfl
@[simp] theorem State.awaitInput_envClock : s.awaitInput.envClock = s.envClock + 1 := rfl

end Sys2Proof.Machine
end

