-- ==== Sys2Proof/Laws/Operands.lean ====
section
/-! SUPPORT. One lemma per shared operation that says everything it can do: addresses, Fetch, the hold, the access
through a pointer and its transactions. -/

namespace Sys2Proof.Machine

/-- The address bits of a word are its value modulo 4096 (20_memory.md R35). -/
@[simp] theorem addrBits_toNat (w : Word) : (addrBits w).toNat = w.toNat % 4096 := by
  simp [addrBits, BitVec.extractLsb'_toNat]

@[simp] theorem zextAddr_toNat (a : Addr) : (zextAddr a).toNat = a.toNat := by
  have := a.isLt
  simp only [zextAddr, BitVec.toNat_setWidth]; omega

@[simp] theorem addrBits_zextAddr (a : Addr) : addrBits (zextAddr a) = a := by
  apply BitVec.eq_of_toNat_eq
  have := a.isLt
  rw [addrBits_toNat, zextAddr_toNat]; omega

/-- Masking a word to its low 12 bits is extending its address bits (`PC & 0xFFF`, 40_cycle.md R66). -/
theorem zextAddr_addrBits (w : Word) : zextAddr (addrBits w) = w &&& 0x0FFF#16 := by
  apply BitVec.eq_of_toNat_eq
  rw [zextAddr_toNat, addrBits_toNat, BitVec.toNat_and]
  exact (Nat.and_two_pow_sub_one_eq_mod w.toNat 12).symm

/-- Fetch as one update (40_cycle.md R66): MAR, IR and PC, nothing else. -/
theorem State.fetch_eq (s : State) : s.fetch =
    { s with mar := zextAddr (addrBits s.pc), ir := s.nextWord, pc := s.pc + 0x0001#16 } := by
  simp only [State.fetch, State.incPc, State.setMar, State.setIr, State.setPc, State.loadCell, State.nextWord,
    addrBits_zextAddr]

@[simp] theorem State.fetch_ir (s : State) : s.fetch.ir = s.nextWord := by rw [State.fetch_eq]

@[simp] theorem State.fetch_loadCell (s : State) (a : Addr) : s.fetch.loadCell a = s.loadCell a := rfl

/-- A state is held exactly when its next word is INPUT and its input stream is empty (40_cycle.md R71). -/
theorem State.held_iff (s : State) : s.held = true ↔ (∃ x, decode s.nextWord = .input x) ∧ s.input = [] := by
  rw [State.held, Bool.and_eq_true, List.isEmpty_iff]
  refine and_congr_left' ?_
  cases decode s.nextWord <;> simp [Instr.isInput]

/-- The effective address (41_data_transfer.md R80): the low 12 bits, or none where the policy is `fault` and a high
bit is set. -/
theorem effAddr_eq (policy : PtrPolicy) (ptr : Word) : effAddr policy ptr =
    if policy = .fault ∧ pointerHigh ptr ≠ 0x0#4 then none else some (addrBits ptr) := by
  cases policy <;> simp only [effAddr]
  · simp
  · split <;> simp_all

/-- An access through a pointer goes on with the low 12 bits of the pointer, or raises the fault, and nothing else
(R80, 60_exceptions.md R122). -/
theorem State.throughPointer_cases (s : State) (p : Addr) (k : Addr → State) :
    (¬ (s.params.ptrPolicy = .fault ∧ pointerHigh (s.loadCell p) ≠ 0x0#4) ∧
      s.throughPointer p k = .next (k (addrBits (s.loadCell p)))) ∨
    (s.params.ptrPolicy = .fault ∧ pointerHigh (s.loadCell p) ≠ 0x0#4 ∧
      s.throughPointer p k = .fault (.addressOutOfRange (s.loadCell p))) := by
  rw [State.throughPointer, State.pointer, effAddr_eq]
  by_cases h : s.params.ptrPolicy = .fault ∧ pointerHigh (s.loadCell p) ≠ 0x0#4
  · exact .inr ⟨h.1, h.2, by rw [if_pos h]; rfl⟩
  · exact .inl ⟨h, by rw [if_neg h]⟩

/-- The access through a pointer that is allowed to go on. -/
theorem State.throughPointer_of_ok {s : State} {p : Addr} (k : Addr → State)
    (h : s.params.ptrPolicy = .mask ∨ pointerHigh (s.loadCell p) = 0x0#4) :
    s.throughPointer p k = .next (k (addrBits (s.loadCell p))) := by
  rcases s.throughPointer_cases p k with h' | ⟨hf, hh, -⟩
  · exact h'.2
  · rcases h with h | h
    · rw [hf] at h; cases h
    · exact absurd h hh

/-- The access through a pointer that raises the fault. -/
theorem State.throughPointer_of_bad {s : State} {p : Addr} (k : Addr → State)
    (hf : s.params.ptrPolicy = .fault) (hh : pointerHigh (s.loadCell p) ≠ 0x0#4) :
    s.throughPointer p k = .fault (.addressOutOfRange (s.loadCell p)) := by
  rcases s.throughPointer_cases p k with h' | h'
  · exact absurd ⟨hf, hh⟩ h'.1
  · exact h'.2.2

/-- If an access through a pointer answers a next state, it went on with the effective address. -/
theorem State.throughPointer_next {s t : State} {p : Addr} {k : Addr → State} (h : s.throughPointer p k = .next t) :
    effAddr s.params.ptrPolicy (s.pointer p) = some (addrBits (s.loadCell p)) ∧
      t = k (addrBits (s.loadCell p)) := by
  rcases s.throughPointer_cases p k with ⟨hn, h'⟩ | ⟨-, -, h'⟩
  · rw [h'] at h
    injection h with h
    exact ⟨by rw [effAddr_eq, State.pointer, if_neg hn], h.symm⟩
  · rw [h'] at h; cases h

end Sys2Proof.Machine
end

