-- ==== Sys2Proof/Laws/PerInstr.lean ====
section
/-! SUPPORT. Statements for all instructions, one lemma per constructor: the word of an instruction carries the opcode
R54's table gives its mnemonic, its twelve low bits whole, and the instruction is well formed. -/

namespace Sys2Proof.Laws

/-- The word carries the opcode and the operand, and matches the one row of the table with the mnemonic. -/
def EncodedFields.Statement (i : Instr) : Prop :=
  opcodeOf (encode i) = i.opcode ∧ operandOf (encode i) = i.operand ∧ i.wf = true ∧
    opcodeTable.lookup i.mnemonic = some (0xF000#16, i.opcode ++ 0x000#12)

/-- The fields of an encoded word are the instruction's. -/
theorem encode_fields (i : Instr) : opcodeOf (encode i) = i.opcode ∧ operandOf (encode i) = i.operand :=
  ⟨opcodeOf_append _ _, operandOf_append _ _⟩

/-- The rest of the statement, from the instruction's mnemonic and opcode: the table's row is a closed fact. -/
theorem encodedFields_of {i : Instr} (m : String) (k : BitVec 4) (hw : i.wf = true) (hm : i.mnemonic = m)
    (hk : i.opcode = k) (ht : opcodeTable.lookup m = some (0xF000#16, k ++ 0x000#12)) : EncodedFields.Statement i :=
  ⟨(encode_fields i).1, (encode_fields i).2, hw, by rw [hm, hk, ht]⟩

theorem EncodedFields.jns (a : Addr) : EncodedFields.Statement (.jns a) :=
  encodedFields_of "JnS" 0x0#4 rfl rfl rfl (by decide)
theorem EncodedFields.load (a : Addr) : EncodedFields.Statement (.load a) :=
  encodedFields_of "LOAD" 0x1#4 rfl rfl rfl (by decide)
theorem EncodedFields.store (a : Addr) : EncodedFields.Statement (.store a) :=
  encodedFields_of "STORE" 0x2#4 rfl rfl rfl (by decide)
theorem EncodedFields.add (a : Addr) : EncodedFields.Statement (.add a) :=
  encodedFields_of "ADD" 0x3#4 rfl rfl rfl (by decide)
theorem EncodedFields.subt (a : Addr) : EncodedFields.Statement (.subt a) :=
  encodedFields_of "SUBT" 0x4#4 rfl rfl rfl (by decide)
theorem EncodedFields.input (x : BitVec 12) : EncodedFields.Statement (.input x) :=
  encodedFields_of "INPUT" 0x5#4 rfl rfl rfl (by decide)
theorem EncodedFields.output (x : BitVec 12) : EncodedFields.Statement (.output x) :=
  encodedFields_of "OUTPUT" 0x6#4 rfl rfl rfl (by decide)
theorem EncodedFields.halt (x : BitVec 12) : EncodedFields.Statement (.halt x) :=
  encodedFields_of "HALT" 0x7#4 rfl rfl rfl (by decide)
theorem EncodedFields.skipcond (c : SkipTest) (x : BitVec 10) : EncodedFields.Statement (.skipcond c x) :=
  encodedFields_of "SKIPCOND" 0x8#4 rfl rfl rfl (by decide)
theorem EncodedFields.jump (a : Addr) : EncodedFields.Statement (.jump a) :=
  encodedFields_of "JUMP" 0x9#4 rfl rfl rfl (by decide)
theorem EncodedFields.clear (x : BitVec 12) : EncodedFields.Statement (.clear x) :=
  encodedFields_of "CLEAR" 0xA#4 rfl rfl rfl (by decide)
theorem EncodedFields.addi (a : Addr) : EncodedFields.Statement (.addi a) :=
  encodedFields_of "ADDI" 0xB#4 rfl rfl rfl (by decide)
theorem EncodedFields.jumpi (a : Addr) : EncodedFields.Statement (.jumpi a) :=
  encodedFields_of "JUMPI" 0xC#4 rfl rfl rfl (by decide)
theorem EncodedFields.loadi (a : Addr) : EncodedFields.Statement (.loadi a) :=
  encodedFields_of "LOADI" 0xD#4 rfl rfl rfl (by decide)
theorem EncodedFields.storei (a : Addr) : EncodedFields.Statement (.storei a) :=
  encodedFields_of "STOREI" 0xE#4 rfl rfl rfl (by decide)
theorem EncodedFields.nopF (x : BitVec 12) : EncodedFields.Statement (.nopF x) :=
  encodedFields_of "NOP_F" 0xF#4 rfl rfl rfl (by decide)

end Sys2Proof.Laws
end

