-- ==== Sys2Proof/Laws/Step.lean ====
section
/-! SUPPORT. What a step can do, said once: the three cases of `step` and what each instruction's `exec` can answer.
Later proofs cite these instead of unfolding. -/

namespace Sys2Proof.Machine

/-- The step of a halted machine (40_cycle.md R70). -/
theorem step_of_halted {s : State} (h : s.run = .halted) : step s = .next s := by rw [step, State.cycle, h]

/-- The step of a held machine (R71). -/
theorem step_of_held {s : State} (h : s.run = .running) (hh : s.held = true) : step s = .next s.awaitInput := by
  rw [step, State.cycle, h]; exact if_pos hh

/-- The step that is taken: Fetch, Decode, Execute (R65). -/
theorem step_of_not_held {s : State} (h : s.run = .running) (hh : s.held ≠ true) :
    step s = exec (decode s.nextWord) s.fetch := by
  rw [step, State.cycle, h, ← State.fetch_ir]; exact if_neg hh

/-- Everything a step can be: of a halted machine, of a held one, or of one that executes its next word. -/
theorem step_cases (s : State) :
    (s.run = .halted ∧ step s = .next s) ∨
    (s.run = .running ∧ s.held = true ∧ step s = .next s.awaitInput) ∨
    (s.run = .running ∧ s.held ≠ true ∧ step s = exec (decode s.nextWord) s.fetch) := by
  rcases hr : s.run with _ | _
  · by_cases hh : s.held = true
    · exact .inr (.inl ⟨rfl, hh, step_of_held hr hh⟩)
    · exact .inr (.inr ⟨rfl, hh, step_of_not_held hr hh⟩)
  · exact .inl ⟨rfl, step_of_halted hr⟩

/-- What an instruction makes of a state where it answers a next state, one line each: the whole of Execute. -/
def execResult (i : Instr) (s : State) : State :=
  match i with
  | .jns a => (((s.setMar (zextAddr a)).setMbr s.pc).storeCell a s.pc).setPc (zextAddr a + 0x0001#16)
  | .load a => s.setAc (s.loadCell a)
  | .store a => s.storeCell a s.ac
  | .add a => s.setAc (aluAdd s.ac (s.loadCell a))
  | .subt a => s.setAc (aluSub s.ac (s.loadCell a))
  | .input _ =>
    match s.input with
    | w :: ws => (s.setInput ws).setAc w
    | [] => s.awaitInput
  | .output _ => s.emit s.ac s.outputMode
  | .halt _ => s.setRun .halted
  | .skipcond c _ => if skipHolds c s.ac then s.incPc else s
  | .jump a => s.setPc (zextAddr a)
  | .clear _ => s.setAc 0x0000#16
  | .addi p => s.setAc (aluAdd s.ac (s.loadCell (addrBits (s.loadCell p))))
  | .jumpi p => s.setPc (s.loadCell p)
  | .loadi p => s.setAc (s.loadCell (addrBits (s.loadCell p)))
  | .storei p => s.storeCell (addrBits (s.loadCell p)) s.ac
  | .nopF _ => s

/-- The pointer cell an instruction goes through, for the three that use `EffAddr` (41_data_transfer.md R80). -/
def pointerOf : Instr → Option Addr
  | .addi p | .loadi p | .storei p => some p
  | .jns _ | .load _ | .store _ | .add _ | .subt _ | .input _ | .output _ | .halt _ => none
  | .skipcond _ _ | .jump _ | .clear _ | .jumpi _ | .nopF _ => none

/-- Everything `exec` can answer: the instruction's result, or, for the three pointer instructions under
`PTR_POLICY = fault`, the fault with the pointer. -/
theorem exec_cases (i : Instr) (s : State) :
    ((∀ p, pointerOf i = some p → ¬ (s.params.ptrPolicy = .fault ∧ pointerHigh (s.loadCell p) ≠ 0x0#4)) ∧
      exec i s = .next (execResult i s)) ∨
    ∃ p, pointerOf i = some p ∧ s.params.ptrPolicy = .fault ∧ pointerHigh (s.loadCell p) ≠ 0x0#4 ∧
      exec i s = .fault (.addressOutOfRange (s.loadCell p)) := by
  have through : ∀ (p : Addr) (k : Addr → State), pointerOf i = some p → exec i s = s.throughPointer p k →
      execResult i s = k (addrBits (s.loadCell p)) →
      ((∀ q, pointerOf i = some q → ¬ (s.params.ptrPolicy = .fault ∧ pointerHigh (s.loadCell q) ≠ 0x0#4)) ∧
        exec i s = .next (execResult i s)) ∨
      ∃ q, pointerOf i = some q ∧ s.params.ptrPolicy = .fault ∧ pointerHigh (s.loadCell q) ≠ 0x0#4 ∧
        exec i s = .fault (.addressOutOfRange (s.loadCell q)) := by
    intro p k hp he hr
    rcases s.throughPointer_cases p k with ⟨hn, h⟩ | ⟨hf, hh, h⟩
    · refine .inl ⟨fun q hq => ?_, by rw [he, hr, h]⟩
      obtain rfl : p = q := Option.some.inj (hp.symm.trans hq)
      exact hn
    · exact .inr ⟨p, hp, hf, hh, he.trans h⟩
  cases i with
  | addi p => exact through p _ rfl rfl rfl
  | loadi p => exact through p _ rfl rfl rfl
  | storei p => exact through p _ rfl rfl rfl
  | input x =>
    refine .inl ⟨by simp [pointerOf], ?_⟩
    simp only [exec, execInput, execResult]
    rcases s.input with _ | ⟨w, ws⟩ <;> rfl
  | jns a =>
    refine .inl ⟨by simp [pointerOf], ?_⟩
    simp only [exec, execJns, execResult, operandWord, State.setMbr_mar, State.setMar_mar, State.setMar_pc,
      addrBits_zextAddr, State.setMbr_mbr]
  | load a => exact .inl ⟨by simp [pointerOf], rfl⟩
  | store a => exact .inl ⟨by simp [pointerOf], rfl⟩
  | add a => exact .inl ⟨by simp [pointerOf], rfl⟩
  | subt a => exact .inl ⟨by simp [pointerOf], rfl⟩
  | output x => exact .inl ⟨by simp [pointerOf], rfl⟩
  | halt x => exact .inl ⟨by simp [pointerOf], rfl⟩
  | skipcond c x => exact .inl ⟨by simp [pointerOf], rfl⟩
  | jump a => exact .inl ⟨by simp [pointerOf], rfl⟩
  | clear x => exact .inl ⟨by simp [pointerOf], rfl⟩
  | jumpi p => exact .inl ⟨by simp [pointerOf], rfl⟩
  | nopF x => exact .inl ⟨by simp [pointerOf], rfl⟩

/-- If `exec` answers a next state, it is the instruction's result, and a pointer instruction got its address. -/
theorem exec_next {i : Instr} {s t : State} (h : exec i s = .next t) :
    t = execResult i s ∧
      ∀ p, pointerOf i = some p → effAddr s.params.ptrPolicy (s.pointer p) = some (addrBits (s.loadCell p)) := by
  rcases exec_cases i s with ⟨hp, he⟩ | ⟨p, -, -, -, he⟩
  · rw [he] at h
    injection h with h
    exact ⟨h.symm, fun p hpp => by rw [effAddr_eq, State.pointer, if_neg (hp p hpp)]⟩
  · rw [he] at h; cases h

/-- An instruction that goes through no pointer always answers its result. -/
theorem exec_of_no_pointer {i : Instr} (s : State) (h : pointerOf i = none) : exec i s = .next (execResult i s) := by
  rcases exec_cases i s with ⟨-, he⟩ | ⟨p, hp, -⟩
  · exact he
  · rw [h] at hp; cases hp

/-- If a step answers a next state, it is the state itself (halted), the state after the environment's turn (held), or
the result of the instruction on the state Fetch left. -/
theorem step_next {s t : State} (h : step s = .next t) :
    (s.run = .halted ∧ t = s) ∨
    (s.run = .running ∧ s.held = true ∧ t = s.awaitInput) ∨
    (s.run = .running ∧ s.held ≠ true ∧ exec (decode s.nextWord) s.fetch = .next t ∧
      t = execResult (decode s.nextWord) s.fetch) := by
  rcases step_cases s with ⟨hr, he⟩ | ⟨hr, hh, he⟩ | ⟨hr, hh, he⟩
  · rw [he] at h; injection h with h; exact .inl ⟨hr, h.symm⟩
  · rw [he] at h; injection h with h; exact .inr (.inl ⟨hr, hh, h.symm⟩)
  · rw [he] at h; exact .inr (.inr ⟨hr, hh, h, (exec_next h).1⟩)

/-- The hold, in the rule's own terms (R71). -/
theorem held_iff_waits (s : State) : s.held = true ↔ WaitsForInput s := s.held_iff

end Sys2Proof.Machine
end

