-- ==== Sys2Proof/Tests/Slice0.lean ====
section
/-! SUPPORT. Small tests, one step each, with results written out from spec/95_test_vectors.md and from the rules, never
from the model's answers; the smoke tests of the well-formedness checks; and, for every statement with hypotheses, states
and operands that meet them (names `witness_…`). -/

namespace Sys2Proof.Tests

open Sys2Proof Sys2Proof.Machine

/-! ### Helpers -/

/-- The next state of an outcome, if there is one. -/
def after (o : Host.Outcome State Fault Refusal) : Option State :=
  match o with
  | .next t => some t
  | .fault _ => none
  | .refused _ => none

/-- The fault of an outcome, if there is one. -/
def faultOf (o : Host.Outcome State Fault Refusal) : Option Fault :=
  match o with
  | .next _ => none
  | .fault f => some f
  | .refused _ => none

/-- The five registers, in the vectors' order AC PC IR MAR MBR. -/
def regs (s : State) : Word × Word × Word × Word × Word := (s.ac, s.pc, s.ir, s.mar, s.mbr)

/-- The reset state with AC and PC set and some cells filled: the vectors' way of giving a pre-state. -/
def start (ac pc : Word) (cells : List (Addr × Word)) : State :=
  cells.foldl (fun s c => s.storeCell c.1 c.2) ((State.reset.setAc ac).setPc pc)

/-- The same under `PTR_POLICY = fault`. -/
def strict (s : State) : State := { s with params := { s.params with ptrPolicy := .fault } }

/-- The registers after one step. -/
def stepRegs (s : State) : Option (Word × Word × Word × Word × Word) := (after (step s)).map regs

/-! ### Well-formedness smoke tests: an ill-formed term for each check, which the check refuses -/

theorem test_wf_refuses_opcode : RawInstr.opcodeFits { opcode := 16, operand := 0 } = false := by decide
theorem test_wf_refuses_operand : RawInstr.operandFits { opcode := 0, operand := 4096 } = false := by decide
theorem test_wf_refuses_raw : RawInstr.wf { opcode := 16, operand := 4096 } = false := by decide
theorem test_wf_accepts_raw : RawInstr.wf { opcode := 15, operand := 4095 } = true := by decide
theorem test_wf_refuses_image :
    Launch.wf { Launch.default with image := List.replicate 4097 0x0000#16 } = false := by
  show decide ((List.replicate 4097 0x0000#16).length ≤ 4096) = false
  rw [List.length_replicate]
  decide
theorem test_wf_accepts_empty_image : Launch.wf Launch.default = true := by decide
theorem test_memory_wf_refuses_unsorted : ¬ Memory.wf [(3, 0x01#8), (2, 0x01#8)] := by decide
theorem test_memory_wf_refuses_zero : ¬ Memory.wf [(3, 0x00#8)] := by decide
theorem test_memory_wf_refuses_outside : ¬ Memory.wf [(8192, 0x01#8)] := by decide

/-! ### Decoding: each word written out from 30_encoding.md R54 and R53, opcode bits then operand bits -/

theorem test_decode_jns : decode 0b0000001000000000#16 = .jns 0x200#12 := by decide
theorem test_decode_load : decode 0b0001000000000100#16 = .load 0x004#12 := by decide
theorem test_decode_store : decode 0b0010000000000101#16 = .store 0x005#12 := by decide
theorem test_decode_add : decode 0b0011000000000101#16 = .add 0x005#12 := by decide
theorem test_decode_subt : decode 0b0100000000001001#16 = .subt 0x009#12 := by decide
theorem test_decode_input : decode 0b0101101010111100#16 = .input 0xABC#12 := by decide
theorem test_decode_output : decode 0b0110101010111100#16 = .output 0xABC#12 := by decide
theorem test_decode_halt : decode 0b0111111111111111#16 = .halt 0xFFF#12 := by decide
theorem test_decode_skip_negative : decode 0b1000001111111111#16 = .skipcond .negative 0x3FF#10 := by decide
theorem test_decode_skip_zero : decode 0b1000010000000000#16 = .skipcond .zero 0x000#10 := by decide
theorem test_decode_skip_positive : decode 0b1000101111111111#16 = .skipcond .positive 0x3FF#10 := by decide
theorem test_decode_skip_never : decode 0b1000110000000000#16 = .skipcond .never 0x000#10 := by decide
theorem test_decode_jump : decode 0b1001111111111111#16 = .jump 0xFFF#12 := by decide
theorem test_decode_clear : decode 0b1010000100100011#16 = .clear 0x123#12 := by decide
theorem test_decode_addi : decode 0b1011000000010000#16 = .addi 0x010#12 := by decide
theorem test_decode_jumpi : decode 0b1100000000000110#16 = .jumpi 0x006#12 := by decide
theorem test_decode_loadi : decode 0b1101000000010000#16 = .loadi 0x010#12 := by decide
theorem test_decode_storei : decode 0b1110000000010000#16 = .storei 0x010#12 := by decide
theorem test_decode_nopF : decode 0b1111111111111111#16 = .nopF 0xFFF#12 := by decide
theorem test_decodeTableWord : decodeTableWord 16 0x8400 = some (.skipcond .zero 0x000#10) := by decide
theorem test_decodeTableWord_longer : decodeTableWord 32 0x8400 = none := by decide

/-- Every row's word, placed by `withFetchWord`, is what the first step after reset fetches and runs. -/
theorem test_withFetchWord_runs_every_row :
    [0x0123, 0x1123, 0x2123, 0x3123, 0x4123, 0x5123, 0x6123, 0x7123, 0x8400, 0x9123, 0xA123, 0xB123, 0xC123, 0xD123,
      0xE123, 0xF123].all
      (fun w => ((after (step (State.reset.withFetchWord 16 w))).map (fun t => t.ir)) == some (BitVec.ofNat 16 w)) =
    true := by decide

/-! ### One step: vectors of 95_test_vectors.md part 2 -/

theorem test_fetch_2 : stepRegs (start 0x0007 0x1005 [(0x005, 0xA000)]) =
    some (0x0000, 0x1006, 0xA000, 0x0005, 0x0000) := by decide
theorem test_fetch_3 : stepRegs (start 0x0000 0xFFFF [(0xFFF, 0xF000)]) =
    some (0x0000, 0x0000, 0xF000, 0x0FFF, 0x0000) := by decide

theorem test_load_1 : stepRegs (start 0x1234 0x0000 [(0x000, 0x1005), (0x005, 0xBEEF)]) =
    some (0xBEEF, 0x0001, 0x1005, 0x0000, 0x0000) := by decide
theorem test_load_3 : stepRegs (start 0x1234 0x0000 [(0x000, 0x1FFF)]) =
    some (0x0000, 0x0001, 0x1FFF, 0x0000, 0x0000) := by decide

theorem test_store_1 :
    (after (step (start 0xCAFE 0x0000 [(0x000, 0x2005)]))).map (fun t => (t.loadCell 0x005, regs t)) =
    some (0xCAFE, (0xCAFE, 0x0001, 0x2005, 0x0000, 0x0000)) := by decide
theorem test_store_2 :
    (after (step (start 0xCAFE 0x0000 [(0x000, 0x2000)]))).map (fun t => (t.loadCell 0x000, t.pc)) =
    some (0xCAFE, 0x0001) := by decide

theorem test_loadi_2 : stepRegs (start 0x0000 0x0000 [(0x000, 0xD010), (0x010, 0x1020), (0x020, 0x5555)]) =
    some (0x5555, 0x0001, 0xD010, 0x0000, 0x0000) := by decide
theorem test_loadi_3 :
    faultOf (step (strict (start 0x0000 0x0000 [(0x000, 0xD010), (0x010, 0x1020), (0x020, 0x5555)]))) =
    some (.addressOutOfRange 0x1020) := by decide

theorem test_storei_2 :
    (after (step (start 0x00AA 0x0000 [(0x000, 0xE010), (0x010, 0x0010)]))).map (fun t => (t.loadCell 0x010, t.pc)) =
    some (0x00AA, 0x0001) := by decide
theorem test_storei_3 :
    (after (step (start 0x00AA 0x0000 [(0x000, 0xE010), (0x010, 0x8020)]))).map
      (fun t => (t.loadCell 0x020, t.loadCell 0x010)) = some (0x00AA, 0x8020) := by decide

theorem test_clear_2 : stepRegs (start 0xFFFF 0x0000 [(0x000, 0xA123)]) =
    some (0x0000, 0x0001, 0xA123, 0x0000, 0x0000) := by decide

theorem test_add_1 : stepRegs (start 0x7FFF 0x0000 [(0x000, 0x3005), (0x005, 0x0001)]) =
    some (0x8000, 0x0001, 0x3005, 0x0000, 0x0000) := by decide
theorem test_add_4 : stepRegs (start 0x1234 0x0000 [(0x000, 0x3005), (0x005, 0xF00D)]) =
    some (0x0241, 0x0001, 0x3005, 0x0000, 0x0000) := by decide
theorem test_subt_1 : stepRegs (start 0x8000 0x0000 [(0x000, 0x4005), (0x005, 0x0001)]) =
    some (0x7FFF, 0x0001, 0x4005, 0x0000, 0x0000) := by decide
theorem test_subt_3 : stepRegs (start 0x0000 0x0000 [(0x000, 0x4005), (0x005, 0x8000)]) =
    some (0x8000, 0x0001, 0x4005, 0x0000, 0x0000) := by decide
theorem test_addi_3 : stepRegs (start 0x0004 0x0000 [(0x000, 0xB010), (0x010, 0xF020), (0x020, 0x0003)]) =
    some (0x0007, 0x0001, 0xB010, 0x0000, 0x0000) := by decide
theorem test_addi_3_strict :
    faultOf (step (strict (start 0x0004 0x0000 [(0x000, 0xB010), (0x010, 0xF020), (0x020, 0x0003)]))) =
    some (.addressOutOfRange 0xF020) := by decide

theorem test_jns_2 :
    (after (step (start 0x0000 0x0020 [(0x020, 0x0FFF)]))).map (fun t => (t.loadCell 0xFFF, regs t)) =
    some (0x0021, (0x0000, 0x1000, 0x0FFF, 0x0FFF, 0x0021)) := by decide
theorem test_jns_4 :
    (after (step (start 0x0000 0x2FFF [(0xFFF, 0x0100)]))).map (fun t => (t.loadCell 0x100, regs t)) =
    some (0x3000, (0x0000, 0x0101, 0x0100, 0x0100, 0x3000)) := by decide
theorem test_jump_3 : stepRegs (start 0x0000 0x3005 [(0x005, 0x9006)]) =
    some (0x0000, 0x0006, 0x9006, 0x0005, 0x0000) := by decide
theorem test_jumpi_1 : stepRegs (start 0x0000 0x0000 [(0x000, 0xC010), (0x010, 0x0ABC), (0xABC, 0x0005)]) =
    some (0x0000, 0x0ABC, 0xC010, 0x0000, 0x0000) := by decide
theorem test_jumpi_2 : stepRegs (start 0x0000 0x0000 [(0x000, 0xC010), (0x010, 0xFABC)]) =
    some (0x0000, 0xFABC, 0xC010, 0x0000, 0x0000) := by decide

/-- V-SKIP, the whole table: a row per AC, a column per word 8000, 8400, 8800, 8C00; the entry is PC after the step. -/
theorem test_skip_table :
    [0x8000#16, 0xFFFF#16, 0x0000#16, 0x0001#16, 0x7FFF#16].map (fun ac =>
      [0x8000#16, 0x8400#16, 0x8800#16, 0x8C00#16].map (fun w =>
        (after (step (start ac 0x0100 [(0x100, w)]))).map (fun t => t.pc))) =
    [[some 0x0102, some 0x0101, some 0x0101, some 0x0101], [some 0x0102, some 0x0101, some 0x0101, some 0x0101],
     [some 0x0101, some 0x0102, some 0x0101, some 0x0101], [some 0x0101, some 0x0101, some 0x0102, some 0x0101],
     [some 0x0101, some 0x0101, some 0x0102, some 0x0101]] := by decide
theorem test_skip_8 : stepRegs (start 0x0000 0xFFFE [(0xFFE, 0x8400)]) =
    some (0x0000, 0x0000, 0x8400, 0x0FFE, 0x0000) := by decide

theorem test_input_1 :
    (after (step ((start 0x1111 0x0000 [(0x000, 0x5000)]).setInput [0xFFFE]))).map (fun t => (t.input, regs t)) =
    some ([], (0xFFFE, 0x0001, 0x5000, 0x0000, 0x0000)) := by decide
theorem test_input_3 : stepRegs (start 0x1111 0x0000 [(0x000, 0x5000)]) =
    some (0x1111, 0x0000, 0x0000, 0x0000, 0x0000) := by decide
theorem test_output_1 :
    (after (step (start 0x0048 0x0000 [(0x000, 0x6000)]))).map (fun t => (t.output, regs t)) =
    some ([(0x0048, .dec)], (0x0048, 0x0001, 0x6000, 0x0000, 0x0000)) := by decide
theorem test_halt_2 :
    (after (step (start 0x0009 0x0002 [(0x002, 0x7FFF)]))).map (fun t => (t.run, regs t)) =
    some (.halted, (0x0009, 0x0003, 0x7FFF, 0x0002, 0x0000)) := by decide
theorem test_nopF_1 :
    (after (step (start 0x0007 0x0000 [(0x000, 0xF123)]))).map (fun t => (t.run, regs t)) =
    some (.running, (0x0007, 0x0001, 0xF123, 0x0000, 0x0000)) := by decide

/-- The zero word is JnS 000 (R57): the first step of V-JNS-6. -/
theorem test_empty_image : (after (step State.reset)).map (fun t => (t.loadCell 0x000, regs t)) =
    some (0x0001, (0x0000, 0x0001, 0x0000, 0x0000, 0x0001)) := by decide

/-! ### The loader and the console -/

/-- S5a's image in memory, by `load` from cell 0x000 upward. -/
theorem test_boot_image :
    ((boot { Launch.default with image := [0x1004, 0x6000, 0x7000, 0x0000, 0x0048] }).toOption).map
      (fun s => (s.loadCell 0x000, s.loadCell 0x004, s.loadCell 0x005, s.pc)) =
    some (0x1004, 0x0048, 0x0000, 0x0000) := by decide
theorem test_boot_entry :
    ((boot { Launch.default with entryPc := 0x0FFF#16 }).toOption).map (fun s => s.pc) = some 0x0FFF := by decide
theorem test_binary_big_endian : (wordsOfBytes [0x10#8, 0x04#8]).toOption = some [0x1004#16] := by decide
theorem test_render_ascii : render (0x0141#16, .ascii) = ['A'] := by decide
theorem test_numeral_72 : decimalNumeral (0x0048#16).toInt = ['7', '2'] := by decide
theorem test_numeral_minus_1 : decimalNumeral (0xFFFF#16).toInt = ['-', '1'] := by decide
theorem test_adapter_minus_2 : wordOfParsed (some (-2)) = 0xFFFE#16 := by decide

/-! ### Witnesses: states and operands that meet a statement's hypotheses, at the boundaries of its clauses -/

/-- A running machine at an INPUT with nothing to read. -/
def waiting : State := start 0x1111 0x0000 [(0x000, 0x5000)]

theorem witness_RawFieldsAssembleWhenTheyFit :
    ((RawInstr.mk 15 4095).opcode < 16 ∧ (RawInstr.mk 15 4095).operand < 4096) ∧
    (16 ≤ (RawInstr.mk 16 0).opcode) ∧ (4096 ≤ (RawInstr.mk 0 4096).operand) := by decide

theorem witness_IgnoredBitsMakeNoDifference :
    (opcodeOf 0x7000#16 = opcodeOf 0x7FFF#16 ∧ opcodeOf 0x7000#16 ∈ [0x5#4, 0x6#4, 0x7#4, 0xA#4, 0xF#4]) ∧
    (opcodeOf 0x8400#16 = opcodeOf 0x87AB#16 ∧ opcodeOf 0x8400#16 = 0x8#4 ∧ condOf 0x8400#16 = condOf 0x87AB#16) := by
  decide

theorem witness_ReservedEncodingsAreNoOps :
    ((start 0 0 [(0x000, 0xF000)]).run = .running ∧ opcodeOf (start 0 0 [(0x000, 0xF000)]).nextWord = 0xF#4) ∧
    (opcodeOf (start 0 0 [(0x000, 0x8FFF)]).nextWord = 0x8#4 ∧
      condOf (start 0 0 [(0x000, 0x8FFF)]).nextWord = 0b11#2) := by decide

theorem not_waiting_of_not_held {s : State} (h : s.held = false) : ¬ WaitsForInput s := by
  rintro ⟨⟨x, hx⟩, hi⟩
  rw [State.held, hx, hi] at h
  exact absurd h (by simp [Instr.isInput])

theorem witness_StepRunsTheDecodedInstruction : State.reset.run = .running ∧ ¬ WaitsForInput State.reset :=
  ⟨rfl, not_waiting_of_not_held (by decide)⟩

theorem witness_HaltedIsTerminal :
    (State.reset.setRun .halted).run = .halted ∧
    ∃ t, (start 0 0 [(0x000, 0x7000)]).run = .running ∧ step (start 0 0 [(0x000, 0x7000)]) = .next t ∧
      t.run = .halted := ⟨rfl, _, rfl, rfl, rfl⟩

theorem witness_HeldInput : waiting.run = .running ∧ WaitsForInput waiting :=
  ⟨rfl, ⟨0x000#12, by decide⟩, rfl⟩

theorem witness_OnlyABadPointerFaults :
    step (strict (start 0 0 [(0x000, 0xD010), (0x010, 0x1000)])) = .fault (.addressOutOfRange 0x1000#16) := rfl

theorem witness_EveryStepKeepsTheInvariant : State.reset.Inv ∧ ∃ t, step State.reset = .next t :=
  ⟨⟨by decide, by decide, by decide⟩, _, rfl⟩

theorem witness_EveryLaunchMeetsTheInvariant : ∃ s, boot Launch.default = .ok s := ⟨_, rfl⟩

theorem witness_LaunchLoadsTheImageOrFails :
    (List.replicate 4096 0x0000#16).length ≤ 4096 ∧ 4096 < (List.replicate 4097 0x0000#16).length := by
  rw [List.length_replicate, List.length_replicate]
  decide

theorem witness_BinaryFiles : ([0x10#8] : List Byte).length % 2 = 1 := by decide

theorem witness_NoStepChangesTheConfiguration : ∃ t, step (strict State.reset) = .next t := ⟨_, rfl⟩

theorem witness_OnlyJnsWritesMarAndMbr :
    (∃ t, step State.reset = .next t ∧ decode State.reset.nextWord = .jns 0x000#12 ∧ State.reset.run = .running ∧
      ¬ WaitsForInput State.reset) ∧
    ∃ t, step (start 0 0 [(0x000, 0x1005)]) = .next t ∧ (start 0 0 [(0x000, 0x1005)]).run = .running ∧
      ¬ WaitsForInput (start 0 0 [(0x000, 0x1005)]) ∧
      ∀ a, decode (start 0 0 [(0x000, 0x1005)]).nextWord ≠ .jns a :=
  ⟨⟨_, rfl, by decide, rfl, not_waiting_of_not_held (by decide)⟩, _, rfl, rfl, not_waiting_of_not_held (by decide),
    fun a h => by
      rw [show decode (start 0 0 [(0x000, 0x1005)]).nextWord = .load 0x005#12 by decide] at h
      cases h⟩

theorem witness_OnlyOutputAppends :
    (∃ t, step (start 0 0 [(0x000, 0x6000)]) = .next t ∧ (start 0 0 [(0x000, 0x6000)]).run = .running ∧
      decode (start 0 0 [(0x000, 0x6000)]).nextWord = .output 0x000#12) ∧
    ∃ t, step State.reset = .next t ∧ ¬ (State.reset.run = .running ∧ ∃ x, decode State.reset.nextWord = .output x) :=
  ⟨⟨_, rfl, rfl, by decide⟩, _, rfl, fun ⟨_, x, h⟩ => by
    rw [show decode State.reset.nextWord = .jns 0x000#12 by decide] at h
    cases h⟩

theorem witness_OnlyInputConsumes :
    (∃ t, step (waiting.setInput [0xFFFE]) = .next t ∧ (waiting.setInput [0xFFFE]).run = .running ∧
      decode (waiting.setInput [0xFFFE]).nextWord = .input 0x000#12) ∧
    ∃ t, step (State.reset.setInput [0xFFFE]) = .next t ∧
      ¬ ((State.reset.setInput [0xFFFE]).run = .running ∧ ∃ x, decode (State.reset.setInput [0xFFFE]).nextWord = .input x) :=
  ⟨⟨_, rfl, rfl, by decide⟩, _, rfl, fun ⟨_, x, h⟩ => by
    rw [show decode (State.reset.setInput [0xFFFE]).nextWord = .jns 0x000#12 by decide] at h
    cases h⟩

/-- STORE 005 stores bytes 10 and 11; bytes 9 and 12 are the nearest outside. -/
theorem witness_StepsWriteNoByteOutside :
    ∃ t, step (start 0xCAFE 0 [(0x000, 0x2005)]) = .next t ∧ ∀ n ∈ [9, 12], ∀ a,
      storedCell (decode (start 0xCAFE 0 [(0x000, 0x2005)]).nextWord) (start 0xCAFE 0 [(0x000, 0x2005)]).fetch = some a →
      n ≠ hiByteOf a ∧ n ≠ loByteOf a :=
  ⟨_, rfl, fun n hn a ha => by
    rw [show storedCell _ _ = some 0x005#12 from rfl] at ha
    cases ha
    revert n
    decide⟩

theorem witness_TransactionsAccountForMemory :
    ∃ t, step (start 0x00AA 0 [(0x000, 0xE010), (0x010, 0x0020)]) = .next t ∧
      (start 0x00AA 0 [(0x000, 0xE010), (0x010, 0x0020)]).transactions =
        [.read 0x000 0xE010, .read 0x010 0x0020, .write 0x020 0x00AA] := ⟨_, rfl, by decide⟩

theorem witness_StagingRegisters :
    SameButStaging State.reset ((State.reset.setMar 0x0FFF).setMbr 0x1234) ∧
    State.reset ≠ (State.reset.setMar 0x0FFF).setMbr 0x1234 := ⟨⟨rfl, rfl, rfl, rfl, rfl, rfl, rfl, rfl⟩, by decide⟩

theorem witness_AStoreIsSeenByTheNextFetch :
    (start 0x7000 0 [(0x000, 0x2001)]).run = .running ∧
    decode (start 0x7000 0 [(0x000, 0x2001)]).nextWord = .store 0x001#12 ∧
    0x001#12 = addrBits ((start 0x7000 0 [(0x000, 0x2001)]).pc + 0x0001#16) := by decide

theorem witness_MemoriesAlike : Memory.wf [(10, 0xCA#8)] ∧ Memory.wf ((Memory.write [] 0x005 0xCA00)) ∧
    ∀ a ∈ [0x004#12, 0x005#12, 0x006#12], Memory.read [(10, 0xCA#8)] a = (Memory.write [] 0x005 0xCA00).read a := by decide

/-- The boundary between the two clauses on the pointer's value. -/
theorem witness_PointerPolicies : (0x0FFF#16).toNat < 4096 ∧ 4096 ≤ (0x1000#16).toNat := by decide

/-- One pair of words at the boundary of each of the six clauses. -/
theorem witness_SignedResults :
    ((0x7FFE#16).toInt + (0x0001#16).toInt ≤ 32767) ∧ (32767 < (0x7FFF#16).toInt + (0x0001#16).toInt) ∧
    ((0x8000#16).toInt + (0xFFFF#16).toInt < -32768) ∧ (-32768 ≤ (0x8001#16).toInt - (0x0001#16).toInt) ∧
    (32767 < (0x0000#16).toInt - (0x8000#16).toInt) ∧ ((0x8000#16).toInt - (0x0001#16).toInt < -32768) := by decide

/-- LOADI, STOREI, ADDI: each policy, with pointers on both sides of the boundary 0x0FFF, 0x1000. -/
theorem witness_PointerInstructions :
    (start 0 0 [(0x010, 0x1000)]).params.ptrPolicy = .mask ∧
    pointerHigh ((strict (start 0 0 [(0x010, 0x0FFF)])).loadCell 0x010) = 0x0#4 ∧
    ((strict (start 0 0 [(0x010, 0x1000)])).params.ptrPolicy = .fault ∧
      pointerHigh ((strict (start 0 0 [(0x010, 0x1000)])).loadCell 0x010) ≠ 0x0#4) := by decide

theorem witness_SkipTaken :
    SkipTaken .negative 0xFFFF#16 ∧ SkipTaken .zero 0x0000#16 ∧ SkipTaken .positive 0x0001#16 ∧
    ¬ SkipTaken .negative 0x0000#16 ∧ ¬ SkipTaken .positive 0x0000#16 ∧ ¬ SkipTaken .never 0x0000#16 := by
  unfold SkipTaken
  decide

theorem witness_SkipcondStep :
    (start 0 0x0100 [(0x100, 0x8400)]).run = .running ∧
    decode (start 0 0x0100 [(0x100, 0x8400)]).nextWord = .skipcond .zero 0x000#10 := by decide

theorem witness_InputTakesTheNextWord :
    (waiting.setInput [0xFFFE, 0x0001]).input = [0xFFFE, 0x0001] ∧
    (waiting.run = .running ∧ decode waiting.nextWord = .input 0x000#12 ∧ waiting.input = []) := by decide

theorem witness_HaltStopsTheMachine :
    ∃ t, State.reset.run = .running ∧ exec (.halt 0x000#12) State.reset = .next t ∧ t.run = .halted :=
  ⟨_, rfl, rfl, rfl⟩

theorem witness_OutputMode :
    State.reset.params.outputModeSource = .startup ∧
    ({ State.reset with params := { Params.default with outputModeSource := .cell0x010 } } :
      State).params.outputModeSource = .cell0x010 := by decide

theorem witness_LoadThenStore :
    (start 0 0 [(0x000, 0x1005), (0x001, 0x2005)]).run = .running ∧
    decode (start 0 0 [(0x000, 0x1005), (0x001, 0x2005)]).nextWord = .load 0x005#12 ∧
    decode ((start 0 0 [(0x000, 0x1005), (0x001, 0x2005)]).loadCell
      (addrBits ((start 0 0 [(0x000, 0x1005), (0x001, 0x2005)]).pc + 0x0001#16))) = .store 0x005#12 := by decide

theorem witness_AddThenSubt :
    (start 0x1234 0 [(0x000, 0x3005), (0x001, 0x4005), (0x005, 0xF00D)]).run = .running ∧
    decode (start 0x1234 0 [(0x000, 0x3005), (0x001, 0x4005), (0x005, 0xF00D)]).nextWord = .add 0x005#12 ∧
    decode ((start 0x1234 0 [(0x000, 0x3005), (0x001, 0x4005), (0x005, 0xF00D)]).loadCell
      (addrBits ((start 0x1234 0 [(0x000, 0x3005), (0x001, 0x4005), (0x005, 0xF00D)]).pc + 0x0001#16))) =
      .subt 0x005#12 := by decide

/-- The call of S6 (JnS 006 at 001) and a state at its return (JUMPI 006 at 008 with cell 006 as the call left it). -/
theorem witness_SubroutineReturns :
    (start 0 0x0001 [(0x001, 0x0006)]).run = .running ∧
    decode (start 0 0x0001 [(0x001, 0x0006)]).nextWord = .jns 0x006#12 ∧
    (start 0 0x0008 [(0x008, 0xC006), (0x006, 0x0002)]).run = .running ∧
    decode (start 0 0x0008 [(0x008, 0xC006), (0x006, 0x0002)]).nextWord = .jumpi 0x006#12 ∧
    (after (step (start 0 0x0001 [(0x001, 0x0006)]))).map (fun t => t.loadCell 0x006) =
      some ((start 0 0x0008 [(0x008, 0xC006), (0x006, 0x0002)]).loadCell 0x006) := by decide

theorem witness_Adapter :
    (-32768 ≤ (-32768 : Int) ∧ (-32768 : Int) ≤ 32767) ∧ ((-32769 : Int) < -32768) ∧ (32767 < (32768 : Int)) := by decide

theorem witness_Rendering : 0 ≤ (0x7FFF#16).toInt ∧ (0x8000#16).toInt < 0 := by decide

end Sys2Proof.Tests
end

section
/-! The whole-cell rules of a memory write (20_memory.md R33), from its byte rules in Laws/Memory. -/

namespace Sys2Proof.Machine

/-- A cell just written reads back as the whole word. -/
@[simp] theorem Memory.read_write_self (m : Memory) (a : Addr) (v : Word) : (m.write a v).read a = v := by
  rw [Memory.read, Memory.readByte_write_hi, Memory.readByte_write_lo, hi_append_lo]

theorem Memory.sameBytesOutside_write (m : Memory) (a : Addr) (v : Word) : SameBytesOutside a m (m.write a v) :=
  fun _ hh hl => Memory.readByte_write_of_ne m v hh hl

/-- Two memories that agree outside cell `a` agree on every other cell: distinct cells share no byte. -/
theorem SameBytesOutside.read_eq {m m' : Memory} {a b : Addr} (h : SameBytesOutside a m m') (hb : b ≠ a) :
    m'.read b = m.read b := by
  have hhi : m'.readByte (hiByteOf b) = m.readByte (hiByteOf b) :=
    h _ (mt hiByteOf_inj.mp hb) (hiByteOf_ne_loByteOf b a)
  have hlo : m'.readByte (loByteOf b) = m.readByte (loByteOf b) :=
    h _ (hiByteOf_ne_loByteOf a b).symm (mt loByteOf_inj.mp hb)
  rw [Memory.read, Memory.read, hhi, hlo]

theorem Memory.read_write_of_ne (m : Memory) {a b : Addr} (v : Word) (hb : b ≠ a) :
    (m.write a v).read b = m.read b :=
  (Memory.sameBytesOutside_write m a v).read_eq hb

/-- Settles O30, from the rules of the written cell, of the other cells and of the bytes outside. -/
theorem aWriteSetsItsCellAndNoOther : Obligations.AWriteSetsItsCellAndNoOther :=
  fun m a v =>
    ⟨Memory.read_write_self m a v, fun _ hb => Memory.read_write_of_ne m v hb, Memory.sameBytesOutside_write m a v⟩

end Sys2Proof.Machine
end

section
/-! The reserved encodings (30_encoding.md R56): no word is refused, and opcode 0xF and SKIPCOND's condition 11 leave
the state as Fetch leaves it. -/

namespace Sys2Proof.Machine

theorem decode_of_opcode_F {w : Word} (h : opcodeOf w = 0xF#4) : decode w = .nopF (operandOf w) := by
  have hw : 0xF#4 ++ operandOf w = w := by rw [← h, opcodeOf_append_operandOf]
  calc decode w = decode (0xF#4 ++ operandOf w) := by rw [hw]
    _ = .nopF (operandOf w) := decode_append _ _

theorem decode_of_opcode_8 {w : Word} (h : opcodeOf w = 0x8#4) :
    decode w = .skipcond (skipTestOf (condOf w)) (skipRestOf w) := by
  have hw : 0x8#4 ++ (condOf w ++ skipRestOf w) = w := by
    rw [← h, condOf_append_skipRestOf, opcodeOf_append_operandOf]
  rw [← decode_skipcond, hw]

theorem exec_ne_refused (i : Instr) (s : State) (r : Refusal) : exec i s ≠ .refused r := by
  rcases exec_cases i s with ⟨-, he⟩ | ⟨p, -, -, -, he⟩ <;> rw [he] <;> nofun

theorem step_ne_refused (s : State) (r : Refusal) : step s ≠ .refused r := by
  rcases step_cases s with ⟨-, he⟩ | ⟨-, -, he⟩ | ⟨-, -, he⟩
  · rw [he]; nofun
  · rw [he]; nofun
  · rw [he]; exact exec_ne_refused _ _ r

/-- Only INPUT can be held (40_cycle.md R71), so a running machine takes the step of every other instruction. -/
theorem step_of_not_input {s : State} (hr : s.run = .running) (hi : (decode s.nextWord).isInput = false) :
    step s = exec (decode s.nextWord) s.fetch :=
  step_of_not_held hr (by simp [State.held, hi])

/-- Fetch in R66's own terms: MAR gets `PC & 0xFFF`. -/
theorem State.fetch_eq_masked (s : State) :
    s.fetch = { s with mar := s.pc &&& 0x0FFF#16, ir := s.nextWord, pc := s.pc + 0x0001#16 } := by
  rw [State.fetch_eq, zextAddr_addrBits]

/-- A running machine whose next word is an instruction that leaves every state alone only fetches. -/
theorem step_eq_fetch_of_noOp {s : State} {i : Instr} (hr : s.run = .running) (hd : decode s.nextWord = i)
    (hi : i.isInput = false) (he : exec i s.fetch = .next s.fetch) : step s = .next s.fetch := by
  subst hd
  exact (step_of_not_input hr hi).trans he

/-- Settles O7: the two reserved forms decode to NOP_F and to SKIPCOND never, whose Execute is the identity. -/
theorem reservedEncodingsAreNoOps : Obligations.ReservedEncodingsAreNoOps := by
  refine ⟨step_ne_refused, fun s hr h => ?_⟩
  rw [← State.fetch_eq_masked]
  rcases h with hF | ⟨h8, hc⟩
  · exact step_eq_fetch_of_noOp hr (decode_of_opcode_F hF) rfl rfl
  · have hd := decode_of_opcode_8 h8
    rw [hc] at hd
    exact step_eq_fetch_of_noOp hr hd rfl rfl

end Sys2Proof.Machine
end

section
/-! The field slices as shifts and masks of the word (30_encoding.md R51, 40_cycle.md R67). -/

namespace Sys2Proof

/-- The mask `0xF` keeps the four low bits. -/
theorem getLsbD_opcodeMask (i : Nat) : (0x000F#16).getLsbD i = decide (i < 4) := by
  rw [show 0x000F#16 = (BitVec.allOnes 4).setWidth 16 from rfl, BitVec.getLsbD_setWidth, BitVec.getLsbD_allOnes]
  simp only [← Bool.decide_and]
  exact decide_eq_decide.mpr (by omega)

theorem opcodeOf_eq_ushiftRight_and (w : Word) : (opcodeOf w).setWidth 16 = (w >>> 12) &&& 0x000F#16 := by
  apply BitVec.eq_of_getLsbD_eq
  intro i hi
  simp only [opcodeOf, BitVec.getLsbD_setWidth, BitVec.getLsbD_extractLsb', BitVec.getLsbD_and,
    BitVec.getLsbD_ushiftRight, getLsbD_opcodeMask, hi, decide_true, Bool.true_and]
  exact Bool.and_comm _ _

/-- The mask drops every bit an arithmetic shift fills with the sign. -/
theorem sshiftRight_and_opcodeMask (w : Word) : (w.sshiftRight 12) &&& 0x000F#16 = (w >>> 12) &&& 0x000F#16 := by
  apply BitVec.eq_of_getLsbD_eq
  intro i hi
  rw [BitVec.getLsbD_and, BitVec.getLsbD_and, getLsbD_opcodeMask]
  by_cases h4 : i < 4
  · have hw : 12 + i < 16 := by omega
    rw [BitVec.getLsbD_sshiftRight, BitVec.getLsbD_ushiftRight, if_pos hw, decide_eq_false (by omega : ¬ 16 ≤ i),
      Bool.not_false, Bool.true_and]
  · rw [decide_eq_false h4, Bool.and_false, Bool.and_false]

/-- Settles O1: the opcode under the logical shift, the mask that makes the arithmetic shift equal to it, the operand
as the word's address bits, and the word as its two fields. -/
theorem fieldsAreTheSlicesOfTheWord : Obligations.FieldsAreTheSlicesOfTheWord := fun w =>
  ⟨opcodeOf_eq_ushiftRight_and w,
    (opcodeOf_eq_ushiftRight_and w).trans (sshiftRight_and_opcodeMask w).symm,
    Machine.zextAddr_addrBits w,
    opcodeOf_append_operandOf w⟩

end Sys2Proof
end

section
/-! LOAD, LOADI, STOREI, CLEAR (41_data_transfer.md): the frames of the two updates they make, and the two answers of an
instruction that goes through a pointer (R80). -/

namespace Sys2Proof.Machine

theorem State.setAc_onlyAcChanges (s : State) (v : Word) : OnlyAcChanges s (s.setAc v) :=
  ⟨rfl, ⟨rfl, rfl, rfl⟩, rfl, fun _ => rfl, rfl, rfl, rfl, rfl⟩

theorem State.storeCell_onlyCellChanges (s : State) (a : Addr) (v : Word) : OnlyCellChanges a s (s.storeCell a v) :=
  ⟨rfl, rfl, ⟨rfl, rfl, rfl⟩, rfl, Memory.sameBytesOutside_write s.mem a v, rfl, rfl, rfl, rfl⟩

@[simp] theorem State.loadCell_storeCell_self (s : State) (a : Addr) (v : Word) : (s.storeCell a v).loadCell a = v :=
  Memory.read_write_self s.mem a v

/-- A pointer instruction answers its result where the policy masks or the pointer names a cell. -/
theorem exec_of_good_pointer {i : Instr} {p : Addr} {s : State} (hp : pointerOf i = some p)
    (h : s.params.ptrPolicy = .mask ∨ pointerHigh (s.loadCell p) = 0x0#4) : exec i s = .next (execResult i s) := by
  rcases exec_cases i s with ⟨-, he⟩ | ⟨q, hq, hf, hh, -⟩
  · exact he
  · obtain rfl : p = q := Option.some.inj (hp.symm.trans hq)
    rcases h with hm | hz
    · rw [hf] at hm; cases hm
    · exact absurd hz hh

/-- A pointer instruction faults with the pointer where the policy does not mask and a high bit is set. -/
theorem exec_of_bad_pointer {i : Instr} {p : Addr} {s : State} (hp : pointerOf i = some p)
    (hf : s.params.ptrPolicy = .fault) (hh : pointerHigh (s.loadCell p) ≠ 0x0#4) :
    exec i s = .fault (.addressOutOfRange (s.loadCell p)) := by
  rcases exec_cases i s with ⟨hok, -⟩ | ⟨q, hq, -, -, he⟩
  · exact absurd ⟨hf, hh⟩ (hok p hp)
  · obtain rfl : p = q := Option.some.inj (hp.symm.trans hq)
    exact he

/-- Settles O38: the result is one write of the cell the pointer names, at the address read before the write. -/
theorem storeiCopiesAcToThePointedCell : Obligations.StoreiCopiesAcToThePointedCell :=
  ⟨fun p => decode_append 0xE#4 p,
    fun _ s h => ⟨_, exec_of_good_pointer rfl h, s.loadCell_storeCell_self _ _, s.storeCell_onlyCellChanges _ _⟩,
    fun _ _ hf hh => exec_of_bad_pointer rfl hf hh⟩

/-- Settles O35: the result is AC set to the cell's word. -/
theorem loadCopiesTheCellToAc : Obligations.LoadCopiesTheCellToAc :=
  ⟨fun a => decode_append 0x1#4 a,
    fun _ s => ⟨_, exec_of_no_pointer s rfl, s.setAc_ac _, s.setAc_onlyAcChanges _⟩⟩

/-- Settles O37: the result is AC set to the word of the cell the pointer names. -/
theorem loadiCopiesThePointedCellToAc : Obligations.LoadiCopiesThePointedCellToAc :=
  ⟨fun p => decode_append 0xD#4 p,
    fun _ s h => ⟨_, exec_of_good_pointer rfl h, s.setAc_ac _, s.setAc_onlyAcChanges _⟩,
    fun _ _ hf hh => exec_of_bad_pointer rfl hf hh⟩

/-- Settles O39: the result is AC set to zero, and Execute makes no transaction. -/
theorem clearZeroesAc : Obligations.ClearZeroesAc :=
  ⟨fun x => decode_append 0xA#4 x,
    fun _ s => ⟨rfl, _, exec_of_no_pointer s rfl, s.setAc_ac _, s.setAc_onlyAcChanges _⟩⟩

end Sys2Proof.Machine
end

section
/-! ADD and ADDI (42_arithmetic.md R86, R88): AC set to the ALU's sum, which is the sum modulo 2^16. -/

namespace Sys2Proof.Machine

theorem aluAdd_toNat (a b : Word) : (aluAdd a b).toNat = (a.toNat + b.toNat) % 65536 := BitVec.toNat_add a b

/-- Settles O40: ADD goes through no pointer, so it always answers AC set to the sum. -/
theorem addAddsTheCellToAc : Obligations.AddAddsTheCellToAc :=
  ⟨fun a => decode_append 0x3#4 a,
    fun a s => ⟨_, exec_of_no_pointer s rfl, aluAdd_toNat s.ac (s.loadCell a), s.setAc_onlyAcChanges _⟩⟩

/-- Settles O42: AC set to the sum with the cell the pointer names, or the fault of a pointer that names none. -/
theorem addiAddsThePointedCellToAc : Obligations.AddiAddsThePointedCellToAc :=
  ⟨fun p => decode_append 0xB#4 p,
    fun p s h => ⟨_, exec_of_good_pointer rfl h, aluAdd_toNat s.ac (s.loadCell (addrBits (s.loadCell p))),
      s.setAc_onlyAcChanges _⟩,
    fun _ _ hf hh => exec_of_bad_pointer rfl hf hh⟩

end Sys2Proof.Machine
end

section
/-! The tests of AC (42_arithmetic.md R85) as comparisons of its signed value with zero, and SKIPCOND's condition as the
test it selects (43_control.md R96). -/

namespace Sys2Proof.Machine

theorem isNeg_iff (a : Word) : isNeg a = true ↔ a.toInt < 0 := by
  rw [isNeg, show a.getLsbD 15 = a.msb from (BitVec.msb_eq_getLsbD_last a).symm, BitVec.msb_eq_toInt,
    decide_eq_true_iff]

theorem isZero_iff (a : Word) : isZero a = true ↔ a.toInt = 0 := by
  rw [isZero, beq_iff_eq, ← BitVec.toInt_inj, BitVec.toInt_zero]

/-- A word is positive where the two other tests fail. -/
theorem isPos_iff (a : Word) : isPos a = true ↔ 0 < a.toInt := by
  have hsplit : isPos a = (!isNeg a && !isZero a) := rfl
  rw [hsplit, Bool.and_eq_true, Bool.not_eq_true', Bool.not_eq_true', ← Bool.not_eq_true, ← Bool.not_eq_true,
    isNeg_iff, isZero_iff]
  omega

@[simp] theorem skipTaken_negative (ac : Word) : SkipTaken .negative ac ↔ ac.toInt < 0 := by simp [SkipTaken]
@[simp] theorem skipTaken_zero (ac : Word) : SkipTaken .zero ac ↔ ac.toInt = 0 := by simp [SkipTaken]
@[simp] theorem skipTaken_positive (ac : Word) : SkipTaken .positive ac ↔ 0 < ac.toInt := by simp [SkipTaken]
@[simp] theorem not_skipTaken_never (ac : Word) : ¬ SkipTaken .never ac := by simp [SkipTaken]

theorem skipHolds_iff (c : SkipTest) (ac : Word) : skipHolds c ac = true ↔ SkipTaken c ac := by
  cases c with
  | negative => exact (isNeg_iff ac).trans (skipTaken_negative ac).symm
  | zero => exact (isZero_iff ac).trans (skipTaken_zero ac).symm
  | positive => exact (isPos_iff ac).trans (skipTaken_positive ac).symm
  | never => exact iff_of_false Bool.false_ne_true (not_skipTaken_never ac)

/-- The sign of AC's value selects one condition and excludes the two others (R96). -/
theorem exists_unique_skipTaken (ac : Word) : ∃ c, SkipTaken c ac ∧ ∀ d, SkipTaken d ac → d = c := by
  rcases lt_trichotomy ac.toInt 0 with h | h | h
  · refine ⟨.negative, (skipTaken_negative ac).mpr h, fun d hd => ?_⟩
    rcases hd with ⟨hd, -⟩ | ⟨-, hz⟩ | ⟨-, hp⟩
    · exact hd
    · omega
    · omega
  · refine ⟨.zero, (skipTaken_zero ac).mpr h, fun d hd => ?_⟩
    rcases hd with ⟨-, hn⟩ | ⟨hd, -⟩ | ⟨-, hp⟩
    · omega
    · exact hd
    · omega
  · refine ⟨.positive, (skipTaken_positive ac).mpr h, fun d hd => ?_⟩
    rcases hd with ⟨-, hn⟩ | ⟨-, hz⟩ | ⟨hd, -⟩
    · omega
    · omega
    · exact hd

end Sys2Proof.Machine
end

section
/-! JnS, SKIPCOND, JUMP (43_control.md): the frame of an update of PC, and what each makes of a state. -/

namespace Sys2Proof.Machine

theorem OnlyPcChanges.refl (s : State) : OnlyPcChanges s s :=
  ⟨rfl, ⟨rfl, rfl, rfl⟩, rfl, fun _ => rfl, rfl, rfl, rfl, rfl⟩

theorem State.setPc_onlyPcChanges (s : State) (v : Word) : OnlyPcChanges s (s.setPc v) :=
  ⟨rfl, ⟨rfl, rfl, rfl⟩, rfl, fun _ => rfl, rfl, rfl, rfl, rfl⟩

/-- `operand + 1` never wraps, since an operand has only 12 bits (R95). -/
theorem zextAddr_succ_toNat (a : Addr) : (zextAddr a + 0x0001#16).toNat = a.toNat + 1 := by
  have ha := a.isLt
  rw [BitVec.toNat_add, zextAddr_toNat]
  exact Nat.mod_eq_of_lt (by simp only [BitVec.toNat_ofNat]; omega)

theorem execResult_skipcond_of_taken {c : SkipTest} (g : BitVec 10) {s : State} (h : SkipTaken c s.ac) :
    execResult (.skipcond c g) s = s.incPc :=
  if_pos ((skipHolds_iff c s.ac).mpr h)

theorem execResult_skipcond_of_not_taken {c : SkipTest} (g : BitVec 10) {s : State} (h : ¬ SkipTaken c s.ac) :
    execResult (.skipcond c g) s = s :=
  if_neg (mt (skipHolds_iff c s.ac).mp h)

theorem execResult_skipcond_onlyPcChanges (c : SkipTest) (g : BitVec 10) (s : State) :
    OnlyPcChanges s (execResult (.skipcond c g) s) := by
  by_cases h : SkipTaken c s.ac
  · rw [execResult_skipcond_of_taken g h]; exact s.setPc_onlyPcChanges _
  · rw [execResult_skipcond_of_not_taken g h]; exact OnlyPcChanges.refl s

/-- The step of a running machine whose next word is an instruction that neither waits nor goes through a pointer. -/
theorem step_of_decode {s : State} {i : Instr} (hr : s.run = .running) (hd : decode s.nextWord = i)
    (hi : i.isInput = false) (hp : pointerOf i = none) : step s = .next (execResult i s.fetch) := by
  subst hd
  exact (step_of_not_input hr hi).trans (exec_of_no_pointer s.fetch hp)

/-- Settles O43: the result writes MAR, MBR, the operand's cell and PC, one update each, with the PC that Fetch left. -/
theorem jnsStoresTheReturnAddressAndJumps : Obligations.JnsStoresTheReturnAddressAndJumps :=
  ⟨fun a => decode_append 0x0#4 a,
    fun a s => ⟨_, exec_of_no_pointer s rfl, zextAddr_toNat a, rfl, Memory.read_write_self s.mem a s.pc,
      zextAddr_succ_toNat a, rfl, rfl, rfl, Memory.sameBytesOutside_write s.mem a s.pc, rfl, rfl, rfl, rfl⟩⟩

/-- Settles O44: a taken skip is one more increment of PC, in Execute alone and after the increment of Fetch. -/
theorem skipcondSkipsWhenItsConditionHolds : Obligations.SkipcondSkipsWhenItsConditionHolds := by
  refine ⟨fun g => ⟨decode_skipcond _ g, decode_skipcond _ g, decode_skipcond _ g, decode_skipcond _ g⟩,
    fun c g s => ⟨rfl, _, exec_of_no_pointer s rfl, execResult_skipcond_onlyPcChanges c g s, fun h => ?_, fun h => ?_⟩,
    exists_unique_skipTaken,
    fun s c g hr hd => ⟨_, step_of_decode hr hd rfl rfl, ?_, fun h => ?_, fun h => ?_⟩⟩
  · rw [execResult_skipcond_of_taken g h]
    exact BitVec.toNat_add s.pc 0x0001#16
  · rw [execResult_skipcond_of_not_taken g h]
  · exact (execResult_skipcond_onlyPcChanges c g s.fetch).1
  · rw [execResult_skipcond_of_taken g (s := s.fetch) h]
    exact BitVec.add_assoc s.pc 0x0001#16 0x0001#16
  · rw [execResult_skipcond_of_not_taken g (s := s.fetch) h]
    exact s.fetch_pc

/-- Settles O45: the result is PC set to the operand extended by zeros, and Execute makes no transaction. -/
theorem jumpSetsPcToTheOperand : Obligations.JumpSetsPcToTheOperand :=
  ⟨fun a => decode_append 0x9#4 a,
    fun a s => ⟨rfl, _, exec_of_no_pointer s rfl, zextAddr_toNat a, s.setPc_onlyPcChanges _⟩⟩

end Sys2Proof.Machine
end

section
/-! OUTPUT and NOP_F (44_io_system.md R106, R108): the two sources of the output mode (R110), each with the transaction
its choice costs. -/

namespace Sys2Proof.Machine

theorem State.outputMode_of_startup {s : State} (h : s.params.outputModeSource = .startup) :
    s.outputMode = s.params.outputMode := by
  rw [State.outputMode, h]

theorem State.outputMode_of_cell {s : State} (h : s.params.outputModeSource = .cell0x010) :
    s.outputMode = Config.modeOfCell (s.loadCell modeCell) := by
  rw [State.outputMode, h]

theorem execTransactions_output_of_startup (x : BitVec 12) {s : State} (h : s.params.outputModeSource = .startup) :
    execTransactions (.output x) s = [] := by
  simp only [execTransactions, h]

theorem execTransactions_output_of_cell (x : BitVec 12) {s : State} (h : s.params.outputModeSource = .cell0x010) :
    execTransactions (.output x) s = [.read modeCell (s.loadCell modeCell)] := by
  simp only [execTransactions, h, State.busRead]

/-- Settles O48: the result is one append of AC with the mode of this moment, which the source selects. -/
theorem outputAppendsAcWithTheMode : Obligations.OutputAppendsAcWithTheMode :=
  ⟨fun x => decode_append 0x6#4 x,
    fun x s => ⟨_, s.outputMode, exec_of_no_pointer s rfl, s.emit_output _ _,
      fun h => ⟨State.outputMode_of_startup h, execTransactions_output_of_startup x h⟩,
      fun h => ⟨State.outputMode_of_cell h, execTransactions_output_of_cell x h⟩,
      s.emit_ac _ _, s.emit_pc _ _, ⟨s.emit_ir _ _, s.emit_mar _ _, s.emit_mbr _ _⟩, s.emit_run _ _, fun _ => rfl,
      s.emit_input _ _, s.emit_params _ _, s.emit_envClock _ _⟩⟩

/-- Settles O50: NOP_F goes through no pointer, and its result is the state it was given. -/
theorem nopFChangesNothing : Obligations.NopFChangesNothing :=
  ⟨fun x => decode_append 0xF#4 x, fun _ s => exec_of_no_pointer s rfl⟩

end Sys2Proof.Machine
end

section
/-! The one fault (60_exceptions.md R122): which instructions go through a pointer, when Execute faults, and when a step
does. -/

namespace Sys2Proof.Machine

theorem pointerOf_eq_some_iff {i : Instr} {p : Addr} :
    pointerOf i = some p ↔ i = .addi p ∨ i = .loadi p ∨ i = .storei p := by
  cases i <;> simp [pointerOf]

theorem isInput_of_pointerOf {i : Instr} {p : Addr} (h : pointerOf i = some p) : i.isInput = false := by
  rcases pointerOf_eq_some_iff.mp h with rfl | rfl | rfl <;> rfl

/-- Execute faults exactly where a pointer instruction meets a pointer with high bits that the policy does not mask. -/
theorem exec_eq_fault_iff {i : Instr} {s : State} {f : Fault} : exec i s = .fault f ↔
    ∃ p, pointerOf i = some p ∧ s.params.ptrPolicy = .fault ∧ pointerHigh (s.loadCell p) ≠ 0x0#4 ∧
      f = .addressOutOfRange (s.loadCell p) := by
  constructor
  · intro h
    rcases exec_cases i s with ⟨-, he⟩ | ⟨p, hp, hf, hh, he⟩
    · rw [he] at h; cases h
    · rw [he] at h
      injection h with h
      exact ⟨p, hp, hf, hh, h.symm⟩
  · rintro ⟨p, hp, hf, hh, rfl⟩
    exact exec_of_bad_pointer hp hf hh

/-- A fault of a step is a fault of Execute on the state Fetch left: a halted or held step has none, and no instruction
that faults can be held. -/
theorem step_eq_fault_iff {s : State} {f : Fault} :
    step s = .fault f ↔ s.run = .running ∧ exec (decode s.nextWord) s.fetch = .fault f := by
  constructor
  · intro h
    rcases step_cases s with ⟨-, he⟩ | ⟨-, -, he⟩ | ⟨hr, -, he⟩
    · rw [he] at h; cases h
    · rw [he] at h; cases h
    · exact ⟨hr, he.symm.trans h⟩
  · rintro ⟨hr, he⟩
    obtain ⟨p, hp, -⟩ := exec_eq_fault_iff.mp he
    exact (step_of_not_input hr (isInput_of_pointerOf hp)).trans he

/-- Settles O14: the step's fault is Execute's, and Fetch leaves the policy and the pointer cell as they were. -/
theorem onlyABadPointerFaults : Obligations.OnlyABadPointerFaults := by
  intro s f
  rw [step_eq_fault_iff, exec_eq_fault_iff]
  constructor
  · rintro ⟨hr, p, hp, hf, hh, hx⟩
    exact ⟨hr, hf, p, pointerOf_eq_some_iff.mp hp, hh, hx⟩
  · rintro ⟨hr, hf, p, hp, hh, hx⟩
    exact ⟨hr, p, pointerOf_eq_some_iff.mpr hp, hf, hh, hx⟩

end Sys2Proof.Machine
end

section
/-! Encoding and decoding (30_encoding.md section 4): the two round trips, the table's rows, and a word's fields as
numbers. -/

namespace Sys2Proof

/-- The round trip goes through `decode_append`, one arm of R54's table per constructor, and through SKIPCOND's own
sub-format, where the condition's two bits select it again. -/
theorem decode_encode (i : Instr) : decode (encode i) = i := by
  cases i with
  | skipcond c x => exact (decode_skipcond c.code x).trans (by rw [skipTestOf_code])
  | _ => exact decode_append _ _

theorem encode_decode (w : Word) : encode (decode w) = w := by
  rw [encode, opcode_decode, operand_decode, opcodeOf_append_operandOf]

theorem append_operand_toNat (k : BitVec 4) (n : BitVec 12) : (k ++ n).toNat = k.toNat * 4096 + n.toNat := by
  rw [BitVec.toNat_append, ← Nat.shiftLeft_add_eq_or_of_lt n.isLt, Nat.shiftLeft_eq]

/-- Settles O3. -/
theorem decodeOfEncodeIsTheInstruction : Obligations.DecodeOfEncodeIsTheInstruction := decode_encode

/-- Settles O4: a word is put together from the fields decoding keeps, and `encode` puts them together by value. -/
theorem encodeOfDecodeIsTheWord : Obligations.EncodeOfDecodeIsTheWord :=
  ⟨encode_decode, fun i => append_operand_toNat i.opcode i.operand⟩

theorem mask_eq_of_mem_opcodeTable : ∀ r ∈ opcodeTable, r.2.1 = 0xF000#16 := by decide

/-- The mask of every row is 0xF000, so the rows a word matches go by its opcode alone. -/
theorem rowsOf_eq_of_opcodeOf_eq {w v : Word} (h : opcodeOf w = opcodeOf v) : rowsOf w = rowsOf v := by
  rw [rowsOf, rowsOf]
  refine congrArg _ (List.filter_congr fun r hr => ?_)
  rw [mask_eq_of_mem_opcodeTable r hr, and_tableMask, and_tableMask, h]

/-- Each opcode, with operand zero, matches the one row of its instruction's mnemonic. -/
theorem rowsOf_opcode (i : Instr) : rowsOf (i.opcode ++ 0x000#12) = [i.mnemonic] := by
  cases i <;> simp only [Instr.opcode, Instr.mnemonic] <;> decide

/-- Settles O2: the rows of a word are those of its opcode, which is that of the instruction it decodes to. -/
theorem everyWordMatchesOneTableRow : Obligations.EveryWordMatchesOneTableRow := fun w => by
  rw [← rowsOf_opcode, opcode_decode]
  exact rowsOf_eq_of_opcodeOf_eq (opcodeOf_append _ _).symm

theorem opcodeOf_toNat (w : Word) : (opcodeOf w).toNat = w.toNat / 4096 := by
  have hw := w.isLt
  rw [opcodeOf, BitVec.extractLsb'_toNat, Nat.shiftRight_eq_div_pow]
  omega

theorem operandOf_toNat (w : Word) : (operandOf w).toNat = w.toNat % 4096 := by
  rw [operandOf, BitVec.extractLsb'_toNat, Nat.shiftRight_zero]

theorem RawInstr.wf_iff (r : RawInstr) : r.wf = true ↔ r.opcode < 16 ∧ r.operand < 4096 := by
  rw [RawInstr.wf, Bool.and_eq_true, RawInstr.opcodeFits, RawInstr.operandFits, decide_eq_true_iff, decide_eq_true_iff]

theorem RawInstr.assemble_of_fits {r : RawInstr} (h : r.opcode < 16 ∧ r.operand < 4096) :
    r.assemble = some (BitVec.ofNat 16 (r.opcode * 4096 + r.operand)) :=
  if_pos (r.wf_iff.mpr h)

theorem RawInstr.assemble_of_not_fits {r : RawInstr} (h : ¬ (r.opcode < 16 ∧ r.operand < 4096)) : r.assemble = none :=
  if_neg (mt r.wf_iff.mp h)

/-- Settles O5: fields that fit make a number below 2^16, whose quotient and remainder by 4096 they are. -/
theorem rawFieldsAssembleWhenTheyFit : Obligations.RawFieldsAssembleWhenTheyFit := by
  refine fun r => ⟨fun h => ⟨_, r.assemble_of_fits h, ?_⟩, fun h => r.assemble_of_not_fits (by omega)⟩
  have hw : (BitVec.ofNat 16 (r.opcode * 4096 + r.operand)).toNat = r.opcode * 4096 + r.operand := by
    rw [BitVec.toNat_ofNat]; exact Nat.mod_eq_of_lt (by omega)
  rw [opcode_decode, operand_decode, opcodeOf_toNat, operandOf_toNat, hw]
  omega

/-- Settles O8, each word by evaluating the decoder on it. -/
theorem sampleWordsDecodeAsTheSpecSays : Obligations.SampleWordsDecodeAsTheSpecSays := by
  unfold Obligations.SampleWordsDecodeAsTheSpecSays
  decide

theorem Instr.wf_eq_true (i : Instr) : i.wf = true := by cases i <;> rfl

end Sys2Proof

namespace Sys2Proof.Machine

/-- For each opcode that ignores its operand (R55), Execute answers the same whatever the twelve low bits are. -/
theorem exec_decode_append_of_ignored {k : BitVec 4} (hk : k ∈ [0x5#4, 0x6#4, 0x7#4, 0xA#4, 0xF#4]) (x y : BitVec 12)
    (s : State) : exec (decode (k ++ x)) s = exec (decode (k ++ y)) s := by
  rw [decode_append, decode_append]
  simp only [List.mem_cons, List.not_mem_nil, or_false] at hk
  rcases hk with rfl | rfl | rfl | rfl | rfl <;> rfl

/-- Settles O6: the five opcodes by the lemma above; two SKIPCOND words decode to the same condition. -/
theorem ignoredBitsMakeNoDifference : Obligations.IgnoredBitsMakeNoDifference := by
  intro w v s hwv h
  rcases h with hk | ⟨h8, hc⟩
  · calc exec (decode w) s = exec (decode (opcodeOf w ++ operandOf w)) s := by rw [opcodeOf_append_operandOf]
      _ = exec (decode (opcodeOf w ++ operandOf v)) s := exec_decode_append_of_ignored hk _ _ s
      _ = exec (decode v) s := by rw [hwv, opcodeOf_append_operandOf]
  · rw [decode_of_opcode_8 h8, decode_of_opcode_8 (hwv ▸ h8), hc]
    rfl

end Sys2Proof.Machine
end

section
/-! What Execute leaves alone, field by field, and the one cell it may write: the frame of every instruction at once,
from which the whole-machine rules follow. -/

namespace Sys2Proof.Machine

theorem execResult_input_cons (x : BitVec 12) {s : State} {w : Word} {ws : List Word} (h : s.input = w :: ws) :
    execResult (.input x) s = (s.setInput ws).setAc w := by
  rw [execResult, h]

theorem execResult_input_nil (x : BitVec 12) {s : State} (h : s.input = []) :
    execResult (.input x) s = s.awaitInput := by
  rw [execResult, h]

/-- INPUT touches AC, the input stream and the environment's counter alone. -/
theorem execResult_input_eq (x : BitVec 12) (s : State) :
    ∃ v ws k, execResult (.input x) s = { s with ac := v, input := ws, envClock := k } := by
  rcases hs : s.input with _ | ⟨w, ws⟩
  · exact ⟨s.ac, _, _, execResult_input_nil x hs⟩
  · exact ⟨w, ws, s.envClock, execResult_input_cons x hs⟩

/-- SKIPCOND touches PC alone. -/
theorem execResult_skipcond_eq (c : SkipTest) (g : BitVec 10) (s : State) :
    ∃ v, execResult (.skipcond c g) s = s.setPc v := by
  by_cases h : SkipTaken c s.ac
  · exact ⟨_, execResult_skipcond_of_taken g h⟩
  · exact ⟨s.pc, execResult_skipcond_of_not_taken g h⟩

/-- The fields that the Execute of instruction `i` leaves as they were when it makes `t` of `s`. -/
structure ExecFrame (i : Instr) (s t : State) : Prop where
  ir : t.ir = s.ir
  params : t.params = s.params
  mar_mbr : (∀ a, i ≠ .jns a) → t.mar = s.mar ∧ t.mbr = s.mbr
  run : (∀ x, i ≠ .halt x) → t.run = s.run
  output : (∀ x, i ≠ .output x) → t.output = s.output
  input : (∀ x, i ≠ .input x) → t.input = s.input

theorem execResult_frame (i : Instr) (s : State) : ExecFrame i s (execResult i s) := by
  cases i with
  | jns a => exact ⟨rfl, rfl, fun h => absurd rfl (h a), fun _ => rfl, fun _ => rfl, fun _ => rfl⟩
  | halt x => exact ⟨rfl, rfl, fun _ => ⟨rfl, rfl⟩, fun h => absurd rfl (h x), fun _ => rfl, fun _ => rfl⟩
  | output x => exact ⟨rfl, rfl, fun _ => ⟨rfl, rfl⟩, fun _ => rfl, fun h => absurd rfl (h x), fun _ => rfl⟩
  | input x =>
    obtain ⟨v, ws, k, h⟩ := execResult_input_eq x s
    rw [h]
    exact ⟨rfl, rfl, fun _ => ⟨rfl, rfl⟩, fun _ => rfl, fun _ => rfl, fun h => absurd rfl (h x)⟩
  | skipcond c g =>
    obtain ⟨v, h⟩ := execResult_skipcond_eq c g s
    rw [h]
    exact ⟨rfl, rfl, fun _ => ⟨rfl, rfl⟩, fun _ => rfl, fun _ => rfl, fun _ => rfl⟩
  | _ => exact ⟨rfl, rfl, fun _ => ⟨rfl, rfl⟩, fun _ => rfl, fun _ => rfl, fun _ => rfl⟩

/-- HALT is the only instruction that halts (10_state.md R17). -/
theorem execResult_halted_iff {i : Instr} {s : State} (hr : s.run = .running) :
    (execResult i s).run = .halted ↔ ∃ x, i = .halt x := by
  refine ⟨fun h => ?_, ?_⟩
  · by_contra hx
    rw [(execResult_frame i s).run (not_exists.mp hx), hr] at h
    cases h
  · rintro ⟨x, rfl⟩
    rfl

/-- The word an instruction stores, where it stores one: JnS the PC that Fetch left, STORE and STOREI AC. -/
def storedWord (i : Instr) (s : State) : Word :=
  match i with
  | .jns _ => s.pc
  | _ => s.ac

/-- The memory after Execute: the stored cell written, where there is one. -/
theorem exec_mem {i : Instr} {s t : State} (h : exec i s = .next t) :
    t.mem = (storedCell i s).elim s.mem fun a => s.mem.write a (storedWord i s) := by
  obtain ⟨rfl, hp⟩ := exec_next h
  cases i with
  | storei p => rw [storedCell, hp p rfl]; rfl
  | input x => obtain ⟨v, ws, k, h⟩ := execResult_input_eq x s; rw [h]; rfl
  | skipcond c g => obtain ⟨v, h⟩ := execResult_skipcond_eq c g s; rw [h]; rfl
  | _ => rfl

/-- A step leaves the memory as it is, or writes the one cell its instruction stores to. -/
theorem step_mem_cases {s t : State} (h : step s = .next t) :
    t.mem = s.mem ∨ ∃ a v, s.run = .running ∧ storedCell (decode s.nextWord) s.fetch = some a ∧
      t.mem = s.mem.write a v := by
  rcases step_next h with ⟨-, rfl⟩ | ⟨-, -, rfl⟩ | ⟨hr, -, he, -⟩
  · exact .inl rfl
  · exact .inl rfl
  · have hm := exec_mem he
    cases hc : storedCell (decode s.nextWord) s.fetch with
    | none => rw [hc] at hm; exact .inl hm
    | some a => rw [hc] at hm; exact .inr ⟨a, _, hr, rfl, hm⟩

/-- Settles O25: outside a written cell every byte is as it was. -/
theorem stepsWriteNoByteOutsideTheStoredCell : Obligations.StepsWriteNoByteOutsideTheStoredCell := by
  intro s t h n hn
  rcases step_mem_cases h with hm | ⟨a, v, hr, hc, hm⟩
  · rw [hm]
  · obtain ⟨hhi, hlo⟩ := hn a hr hc
    rw [hm, Memory.readByte_write_of_ne s.mem v hhi hlo]

/-- Settles O21. -/
theorem noStepChangesTheConfiguration : Obligations.NoStepChangesTheConfiguration := by
  intro s t h
  rcases step_next h with ⟨-, rfl⟩ | ⟨-, -, rfl⟩ | ⟨-, -, -, rfl⟩
  · rfl
  · rfl
  · exact (execResult_frame _ s.fetch).params

end Sys2Proof.Machine
end

section
/-! The invariant (10_state.md R14, R17, R20): reset and every launch meet it, every step keeps it. -/

namespace Sys2Proof.Machine

theorem step_keeps_mem_wf {s t : State} (hs : s.mem.wf) (h : step s = .next t) : t.mem.wf := by
  rcases step_mem_cases h with hm | ⟨a, v, -, -, hm⟩
  · rw [hm]; exact hs
  · rw [hm]; exact Memory.wf_write hs a v

/-- Execute puts an address into MAR, or leaves the one Fetch put there. -/
theorem execResult_mar_lt (i : Instr) {s : State} (hs : s.mar.toNat < 4096) : (execResult i s).mar.toNat < 4096 := by
  by_cases h : ∃ a, i = .jns a
  · obtain ⟨a, rfl⟩ := h
    exact (zextAddr_toNat a).trans_lt a.isLt
  · rw [((execResult_frame i s).mar_mbr (not_exists.mp h)).1]
    exact hs

theorem opcodeOf_eq_of_decode {w : Word} {i : Instr} (h : decode w = i) : opcodeOf w = i.opcode := by
  rw [← opcode_decode, h]

/-- Settles O15: a halted or held step keeps the registers and memory; a taken step has a fetch address in MAR and the
executed word in IR, which is HALT where it halts. -/
theorem everyStepKeepsTheInvariant : Obligations.EveryStepKeepsTheInvariant := by
  intro s t hs h
  have hm := step_keeps_mem_wf hs.1 h
  rcases step_next h with ⟨-, rfl⟩ | ⟨-, -, rfl⟩ | ⟨hr, -, -, rfl⟩
  · exact hs
  · exact hs
  · have hmar : s.fetch.mar.toNat < 4096 := (zextAddr_toNat (addrBits s.pc)).trans_lt (addrBits s.pc).isLt
    refine ⟨hm, execResult_mar_lt _ hmar, fun hh => ?_⟩
    obtain ⟨x, hx⟩ := (execResult_halted_iff (s := s.fetch) hr).mp hh
    rw [(execResult_frame _ s.fetch).ir, State.fetch_ir, opcodeOf_eq_of_decode hx]
    rfl

/-- Settles O16. -/
theorem resetMeetsTheInvariant : Obligations.ResetMeetsTheInvariant :=
  ⟨Memory.wf_nil, by decide, nofun⟩

/-- The machine a launch builds, where its image fits. -/
def launched (l : Launch) : State :=
  { State.reset with pc := l.entryPc, mem := Memory.loadFrom [] 0 l.image, params := l.params }

theorem boot_of_fits {l : Launch} (h : l.image.length ≤ 4096) : boot l = .ok (launched l) :=
  if_pos (decide_eq_true h)

theorem boot_of_too_long {l : Launch} (h : 4096 < l.image.length) : boot l = .error .imageTooLong :=
  if_neg (by rw [Launch.wf, decide_eq_true_iff]; omega)

/-- Settles O17: loading an image keeps the canonical form, and the registers are those of reset. -/
theorem everyLaunchMeetsTheInvariant : Obligations.EveryLaunchMeetsTheInvariant := by
  intro l s h
  rcases Nat.lt_or_ge 4096 l.image.length with hl | hl
  · rw [boot_of_too_long hl] at h; cases h
  · rw [boot_of_fits hl] at h
    injection h with h
    subst h
    exact ⟨Memory.wf_loadFrom Memory.wf_nil 0 l.image, show (0x0000#16).toNat < 4096 by decide, nofun⟩

end Sys2Proof.Machine
end

section
/-! Noninterference (10_state.md R13 to R16): Fetch and Execute read none of IR, MAR and MBR, so states alike but for
those registers go on alike. -/

namespace Sys2Proof.Machine

namespace SameButStaging

variable {s t : State}

/-- Two states alike but for IR, MAR and MBR are one state with two contents of those registers. -/
theorem exists_eq (h : SameButStaging s t) : ∃ ir mar mbr, t = { s with ir := ir, mar := mar, mbr := mbr } := by
  obtain ⟨hac, hpc, hrun, hmem, hin, hout, hpar, hclk⟩ := h
  refine ⟨t.ir, t.mar, t.mbr, ?_⟩
  rw [← hac, ← hpc, ← hrun, ← hmem, ← hin, ← hout, ← hpar, ← hclk]

theorem run_eq (h : SameButStaging s t) : t.run = s.run := by
  obtain ⟨-, -, hrun, -⟩ := h
  exact hrun

theorem input_eq (h : SameButStaging s t) : t.input = s.input := by
  obtain ⟨-, -, -, -, hin, -⟩ := h
  exact hin

theorem params_eq (h : SameButStaging s t) : t.params = s.params := by
  obtain ⟨-, -, -, -, -, -, hpar, -⟩ := h
  exact hpar

theorem loadCell_eq (h : SameButStaging s t) (a : Addr) : t.loadCell a = s.loadCell a := by
  obtain ⟨-, -, -, rfl⟩ := h.exists_eq
  rfl

theorem nextWord_eq (h : SameButStaging s t) : t.nextWord = s.nextWord := by
  obtain ⟨-, -, -, rfl⟩ := h.exists_eq
  rfl

theorem held_eq (h : SameButStaging s t) : t.held = s.held := by
  rw [State.held, State.held, h.nextWord_eq, h.input_eq]

theorem fetch (h : SameButStaging s t) : SameButStaging s.fetch t.fetch := by
  obtain ⟨-, -, -, rfl⟩ := h.exists_eq
  exact ⟨rfl, rfl, rfl, rfl, rfl, rfl, rfl, rfl⟩

theorem awaitInput (h : SameButStaging s t) : SameButStaging s.awaitInput t.awaitInput := by
  obtain ⟨-, -, -, rfl⟩ := h.exists_eq
  exact ⟨rfl, rfl, rfl, rfl, rfl, rfl, rfl, rfl⟩

theorem setAc_setInput (h : SameButStaging s t) (w : Word) (ws : List Word) :
    SameButStaging ((s.setInput ws).setAc w) ((t.setInput ws).setAc w) := by
  obtain ⟨-, -, -, rfl⟩ := h.exists_eq
  exact ⟨rfl, rfl, rfl, rfl, rfl, rfl, rfl, rfl⟩

theorem incPc (h : SameButStaging s t) : SameButStaging s.incPc t.incPc := by
  obtain ⟨-, -, -, rfl⟩ := h.exists_eq
  exact ⟨rfl, rfl, rfl, rfl, rfl, rfl, rfl, rfl⟩

/-- INPUT and SKIPCOND choose by the stream and by AC, which are alike; the others compute alike field by field. -/
theorem execResult (h : SameButStaging s t) (i : Instr) :
    SameButStaging (execResult i s) (execResult i t) := by
  cases i with
  | input x =>
    rcases hs : s.input with _ | ⟨w, ws⟩
    · rw [execResult_input_nil x hs, execResult_input_nil x (h.input_eq.trans hs)]
      exact h.awaitInput
    · rw [execResult_input_cons x hs, execResult_input_cons x (h.input_eq.trans hs)]
      exact h.setAc_setInput w ws
  | skipcond c g =>
    have hac : t.ac = s.ac := h.1
    by_cases hc : SkipTaken c s.ac
    · rw [execResult_skipcond_of_taken g hc, execResult_skipcond_of_taken g (hac ▸ hc)]
      exact h.incPc
    · rw [execResult_skipcond_of_not_taken g hc, execResult_skipcond_of_not_taken g (hac ▸ hc)]
      exact h
  | _ =>
    obtain ⟨-, -, -, rfl⟩ := h.exists_eq
    exact ⟨rfl, rfl, rfl, rfl, rfl, rfl, rfl, rfl⟩

/-- The pointer and the policy that decide on a fault are alike too, so both fault with it or neither does. -/
theorem exec (h : SameButStaging s t) (i : Instr) : SameOutcomeButStaging (exec i s) (exec i t) := by
  rcases exec_cases i s with ⟨hok, he⟩ | ⟨p, hp, hf, hh, he⟩
  · rcases exec_cases i t with ⟨-, he'⟩ | ⟨p, hp, hf, hh, -⟩
    · rw [he, he']
      exact h.execResult i
    · rw [h.params_eq] at hf
      rw [h.loadCell_eq] at hh
      exact absurd ⟨hf, hh⟩ (hok p hp)
  · rw [← h.params_eq] at hf
    rw [← h.loadCell_eq] at hh
    rw [he, exec_of_bad_pointer hp hf hh, h.loadCell_eq]
    exact rfl

end SameButStaging

/-- Settles O27: both states are halted, both are held, or both run the same instruction on states alike after Fetch. -/
theorem stagingRegistersNeverInfluenceARun : Obligations.StagingRegistersNeverInfluenceARun := by
  intro s t h
  rcases step_cases s with ⟨hr, he⟩ | ⟨hr, hh, he⟩ | ⟨hr, hh, he⟩
  · rw [he, step_of_halted (h.run_eq.trans hr)]
    exact h
  · rw [he, step_of_held (h.run_eq.trans hr) (h.held_eq.trans hh)]
    exact h.awaitInput
  · rw [he, step_of_not_held (h.run_eq.trans hr) (h.held_eq ▸ hh), h.nextWord_eq]
    exact h.fetch.exec _

end Sys2Proof.Machine
end

section
/-! The transactions of a step (20_memory.md R46, R48): Execute reads at most two cells and then writes the stored cell,
so a step's list is reads first and at most one write at its end. -/

namespace Sys2Proof.Machine

/-- The write transaction of Execute, if the instruction stores a cell. -/
def storeTransactions (i : Instr) (s : State) : List Transaction :=
  (storedCell i s).toList.map fun a => .write a (storedWord i s)

theorem storeTransactions_length_le (i : Instr) (s : State) : (storeTransactions i s).length ≤ 1 := by
  rw [storeTransactions, List.length_map, Option.length_toList]
  split <;> decide

/-- The table of R48 in one form: reads of the state's cells, then the store, two transactions at most. -/
theorem execTransactions_eq (i : Instr) (s : State) : ∃ as : List Addr,
    execTransactions i s = as.map s.busRead ++ storeTransactions i s ∧
      as.length + (storeTransactions i s).length ≤ 2 := by
  cases i with
  | jns a | store a => exact ⟨[], rfl, Nat.le_succ 1⟩
  | load a | add a | subt a | jumpi a => exact ⟨[a], rfl, Nat.le_succ 1⟩
  | addi p | loadi p =>
    rcases he : effAddr s.params.ptrPolicy (s.pointer p) with _ | ea
    · exact ⟨[p], by rw [execTransactions, State.busThroughPointer, he]; rfl, Nat.le_succ 1⟩
    · exact ⟨[p, ea], by rw [execTransactions, State.busThroughPointer, he]; rfl, le_refl 2⟩
  | storei p =>
    refine ⟨[p], ?_, Nat.add_le_add_left (storeTransactions_length_le _ s) 1⟩
    simp only [execTransactions, State.busThroughPointer, storeTransactions, storedCell, Option.toList_map]
    rfl
  | output x =>
    rcases hm : s.params.outputModeSource with _ | _
    · exact ⟨[], execTransactions_output_of_startup x hm, Nat.zero_le 2⟩
    · exact ⟨[modeCell], execTransactions_output_of_cell x hm, Nat.le_succ 1⟩
  | input x | halt x | jump a | clear x | nopF x => exact ⟨[], rfl, Nat.zero_le 2⟩
  | skipcond c x => exact ⟨[], rfl, Nat.zero_le 2⟩

/-- Reads change no memory (R32). -/
theorem Memory.replay_reads_append (m : Memory) (s : State) (as : List Addr) (ts : List Transaction) :
    m.replay (as.map s.busRead ++ ts) = m.replay ts := by
  induction as with
  | nil => rfl
  | cons a as ih => exact ih

theorem Memory.replay_storeTransactions (m : Memory) (i : Instr) (s : State) :
    m.replay (storeTransactions i s) = (storedCell i s).elim m fun a => m.write a (storedWord i s) := by
  rw [storeTransactions]
  cases storedCell i s <;> rfl

theorem State.transactions_of_halted {s : State} (h : s.run = .halted) : s.transactions = [] := by
  rw [State.transactions, h]

theorem State.transactions_of_held {s : State} (h : s.run = .running) (hh : s.held = true) : s.transactions = [] := by
  rw [State.transactions, h]
  exact if_pos hh

theorem State.transactions_of_not_held {s : State} (h : s.run = .running) (hh : s.held ≠ true) :
    s.transactions = s.busRead (addrBits s.pc) :: execTransactions (decode s.nextWord) s.fetch := by
  rw [State.transactions, h]
  exact if_neg hh

/-- What a list of transactions has to do with a memory before and after (R48). -/
structure AccountsFor (ts : List Transaction) (m m' : Memory) : Prop where
  replay : m' = m.replay ts
  agree : ∀ x ∈ ts, x.agreesWith m = true
  length_le : ts.length ≤ 3
  writes_le : (ts.filter Transaction.isWrite).length ≤ 1

theorem accountsFor_nil (m : Memory) : AccountsFor [] m m := ⟨rfl, nofun, by decide, by decide⟩

/-- Reads of the state's cells and then the store account for the memory that the store makes. -/
theorem accountsFor_reads_store {as : List Addr} {i : Instr} {s : State}
    (hl : as.length + (storeTransactions i s).length ≤ 3) :
    AccountsFor (as.map s.busRead ++ storeTransactions i s) s.mem
      ((storedCell i s).elim s.mem fun a => s.mem.write a (storedWord i s)) where
  replay := by rw [Memory.replay_reads_append, Memory.replay_storeTransactions]
  agree := by
    intro x hx
    rcases List.mem_append.mp hx with hx | hx
    · obtain ⟨a, -, rfl⟩ := List.mem_map.mp hx
      exact decide_eq_true rfl
    · obtain ⟨a, -, rfl⟩ := List.mem_map.mp hx
      rfl
  length_le := by rw [List.length_append, List.length_map]; exact hl
  writes_le := by
    have hreads : (as.map s.busRead).filter Transaction.isWrite = [] := by
      refine List.filter_eq_nil_iff.mpr fun x hx => ?_
      obtain ⟨a, -, rfl⟩ := List.mem_map.mp hx
      exact Bool.false_ne_true
    rw [List.filter_append, hreads, List.nil_append]
    exact (List.length_filter_le _ _).trans (storeTransactions_length_le i s)

theorem step_accountsFor {s t : State} (h : step s = .next t) : AccountsFor s.transactions s.mem t.mem := by
  rcases step_next h with ⟨hr, rfl⟩ | ⟨hr, hh, rfl⟩ | ⟨hr, hh, he, -⟩
  · rw [State.transactions_of_halted hr]
    exact accountsFor_nil t.mem
  · rw [State.transactions_of_held hr hh]
    exact accountsFor_nil s.mem
  · obtain ⟨as, hts, hl⟩ := execTransactions_eq (decode s.nextWord) s.fetch
    rw [State.transactions_of_not_held hr hh, hts, exec_mem he]
    exact accountsFor_reads_store (as := addrBits s.pc :: as) (s := s.fetch) (by rw [List.length_cons]; omega)

/-- Settles O26: the fetch read and Execute's list, or no transaction at all. -/
theorem transactionsAccountForMemory : Obligations.TransactionsAccountForMemory := by
  intro s t h
  obtain ⟨hreplay, hagree, hlength, hwrites⟩ := step_accountsFor h
  exact ⟨hreplay, hagree, hlength, hwrites⟩

end Sys2Proof.Machine
end

section
/-! The cycle (40_cycle.md R65, R66, R70, R71): Fetch, the halted machine, the held INPUT, and the step that is taken. -/

namespace Sys2Proof.Machine

theorem addrBits_eq_ofNat (w : Word) : addrBits w = BitVec.ofNat 12 (w.toNat % 4096) := by
  apply BitVec.eq_of_toNat_eq
  rw [addrBits_toNat, BitVec.toNat_ofNat, Nat.mod_mod]

theorem succ_eq_ofNat (w : Word) : w + 0x0001#16 = BitVec.ofNat 16 ((w.toNat + 1) % 65536) := by
  apply BitVec.eq_of_toNat_eq
  simp [BitVec.toNat_add]

/-- Settles O9: the masked form of Fetch, with the address and the increment as numbers. -/
theorem fetchWritesMarIrAndPc : Obligations.FetchWritesMarIrAndPc := by
  intro s
  rw [State.fetch_eq_masked, ← addrBits_eq_ofNat, ← succ_eq_ofNat]
  rfl

theorem step_of_not_waits {s : State} (hr : s.run = .running) (hw : ¬ WaitsForInput s) :
    step s = exec (decode s.nextWord) s.fetch :=
  step_of_not_held hr (mt (held_iff_waits s).mp hw)

/-- Settles O10. -/
theorem stepRunsTheDecodedInstruction : Obligations.StepRunsTheDecodedInstruction := by
  intro s hr hw
  refine ⟨Instr.wf_eq_true _, ?_⟩
  rw [step_of_not_waits hr hw, State.fetch_eq_masked]

/-- A machine in a state that steps to itself stays there, for any number of steps. -/
theorem run_of_step_eq_self {M : Host.Core} {s : M.State} (h : M.step s = .next s) (k : Nat) : M.run k s = .next s := by
  induction k with
  | zero => rfl
  | succ k ih => rw [Host.Core.run, h]; exact ih

/-- Settles O11: from Halted by the halted step; to Halted since a hold keeps the run state and only HALT's Execute
sets it. -/
theorem haltedIsTerminalAndOnlyHaltReachesIt : Obligations.HaltedIsTerminalAndOnlyHaltReachesIt := by
  refine ⟨fun s h => ⟨State.transactions_of_halted h, fun ws => step_of_halted (s := s.setInput ws) h,
    run_of_step_eq_self (M := core) (step_of_halted h)⟩, fun s t hr h => ?_⟩
  rcases step_next h with ⟨hr', -⟩ | ⟨-, hh, rfl⟩ | ⟨-, -, -, rfl⟩
  · rw [hr] at hr'; cases hr'
  · obtain ⟨⟨x, hx⟩, -⟩ := (held_iff_waits s).mp hh
    rw [State.awaitInput_run, hr, hx]
    exact iff_of_false nofun nofun
  · exact execResult_halted_iff (s := s.fetch) hr

theorem step_of_waits {s : State} (hr : s.run = .running) (hw : WaitsForInput s) : step s = .next s.awaitInput :=
  step_of_held hr ((held_iff_waits s).mpr hw)

theorem State.awaitInput_sameHardware (s : State) : SameHardware s s.awaitInput :=
  ⟨rfl, rfl, ⟨rfl, rfl, rfl⟩, rfl, rfl⟩

theorem State.awaitInput_input_of_nil {s : State} (h : s.input = []) :
    s.awaitInput.input = (Config.arrival s.envClock).toList := by
  rw [State.awaitInput_input, h, List.nil_append]

/-- Settles O12: the environment's turn keeps the hardware and supplies at most one word. -/
theorem heldInputChangesNoHardwareState : Obligations.HeldInputChangesNoHardwareState := by
  intro s hr hw
  refine ⟨State.transactions_of_held hr ((held_iff_waits s).mpr hw), _, step_of_waits hr hw,
    s.awaitInput_sameHardware, rfl, rfl, ?_⟩
  rw [State.awaitInput_input_of_nil hw.2]
  cases Config.arrival s.envClock <;> simp

/-- The step of a running machine at an INPUT with a word ready (R105). -/
theorem step_of_input_cons {s : State} {x : BitVec 12} {w : Word} {ws : List Word} (hr : s.run = .running)
    (hd : decode s.nextWord = .input x) (hi : s.input = w :: ws) :
    step s = .next ((s.fetch.setInput ws).setAc w) := by
  have hw : ¬ WaitsForInput s := fun hw => List.cons_ne_nil w ws (hi.symm.trans hw.2)
  rw [step_of_not_waits hr hw, hd, exec_of_no_pointer _ rfl, execResult_input_cons x (s := s.fetch) hi]

/-- Settles O13: by what arrives in the environment's turn; a word that comes is taken by the next step. -/
theorem heldInputGoesOnWhenAWordComes : Obligations.HeldInputGoesOnWhenAWordComes := by
  intro s hr hw
  obtain ⟨⟨x, hx⟩, hnil⟩ := hw
  have hin := State.awaitInput_input_of_nil hnil
  refine ⟨_, step_of_waits hr ⟨⟨x, hx⟩, hnil⟩, ?_⟩
  rcases ha : Config.arrival s.envClock with _ | w
  · rw [ha] at hin
    exact .inl ⟨⟨x, hx⟩, hin⟩
  · rw [ha] at hin
    exact .inr ⟨w, _, hin, step_of_input_cons (s := s.awaitInput) hr hx hin, rfl, rfl, rfl, State.fetch_ir _,
      zextAddr_addrBits s.pc, rfl, rfl, hr, rfl⟩

end Sys2Proof.Machine
end

section
/-! What a step does to MAR, MBR and the two streams (10_state.md R14, R15; 44_io_system.md R105, R109). -/

namespace Sys2Proof.Machine

/-- Settles O22: JnS's result, and the frame of every other instruction on the MAR and MBR that Fetch left. -/
theorem onlyJnsWritesMarAndMbrBesidesFetch : Obligations.OnlyJnsWritesMarAndMbrBesidesFetch := by
  intro s t hr hw h
  rw [step_of_not_waits hr hw] at h
  obtain ⟨rfl, -⟩ := exec_next h
  refine ⟨fun a ha => ?_, fun hj => ?_⟩
  · rw [ha]
    exact ⟨rfl, rfl⟩
  · obtain ⟨hmar, hmbr⟩ := (execResult_frame _ s.fetch).mar_mbr hj
    rw [hmar, hmbr]
    exact ⟨zextAddr_addrBits s.pc, rfl⟩

/-- Settles O23: OUTPUT's step appends; a halted, a held and every other step leaves the output stream. -/
theorem onlyOutputAppendsToTheOutputStream : Obligations.OnlyOutputAppendsToTheOutputStream := by
  intro s t h
  refine ⟨fun ⟨hr, x, hx⟩ => ?_, fun hn => ?_⟩
  · rw [step_of_decode hr hx rfl rfl] at h
    injection h with h
    rw [← h]
    rfl
  · rcases step_next h with ⟨-, rfl⟩ | ⟨-, -, rfl⟩ | ⟨hr, -, -, rfl⟩
    · rfl
    · rfl
    · exact (execResult_frame _ s.fetch).output fun x hx => hn ⟨hr, x, hx⟩

/-- Settles O24: with a word ready no step is held, INPUT's takes it, and a halted and every other step leaves the
stream. -/
theorem onlyInputConsumesTheInputStream : Obligations.OnlyInputConsumesTheInputStream := by
  intro s t w ws hin h
  refine ⟨fun ⟨hr, x, hx⟩ => ?_, fun hn => ?_⟩
  · rw [step_of_input_cons hr hx hin] at h
    injection h with h
    rw [← h]
    exact ⟨rfl, rfl⟩
  · rcases step_next h with ⟨-, rfl⟩ | ⟨-, hh, -⟩ | ⟨hr, -, -, rfl⟩
    · exact hin
    · rw [((held_iff_waits s).mp hh).2] at hin
      cases hin
    · exact ((execResult_frame _ s.fetch).input fun x hx => hn ⟨hr, x, hx⟩).trans hin

end Sys2Proof.Machine
end

section
/-! Reset and the loader (10_state.md R22; 20_memory.md R36, R47): what a cell reads after an image is loaded, and the
words of a binary file. -/

namespace Sys2Proof.Machine

/-- Settles O18: the registers by their values, and a cell of the empty memory reads as zero. -/
theorem resetHoldsTheValuesOfTheTable : Obligations.ResetHoldsTheValuesOfTheTable :=
  ⟨rfl, rfl, rfl, rfl, rfl, rfl, rfl, rfl, Memory.read_nil⟩

/-- Loading from cell `n` leaves the cells below `n` and above the image, and cell `n + k` holds word `k`. -/
theorem Memory.read_loadFrom (m : Memory) (n : Nat) (ws : List Word) (a : Addr) (h : n + ws.length ≤ 4096) :
    (m.loadFrom n ws).read a = if a.toNat < n then m.read a else ws.getD (a.toNat - n) (m.read a) := by
  induction ws generalizing m n with
  | nil => exact (ite_self _).symm
  | cons w ws ih =>
    rw [List.length_cons] at h
    have hn : (BitVec.ofNat 12 n).toNat = n := by rw [BitVec.toNat_ofNat]; exact Nat.mod_eq_of_lt (by omega)
    rw [Memory.loadFrom, ih _ _ (by omega)]
    have hne : a.toNat ≠ n → (m.write (BitVec.ofNat 12 n) w).read a = m.read a := fun h =>
      m.read_write_of_ne w fun ha => h (by rw [ha, hn])
    rcases lt_trichotomy a.toNat n with hlt | heq | hgt
    · rw [if_pos (by omega), if_pos hlt, hne hlt.ne]
    · have ha : a = BitVec.ofNat 12 n := BitVec.eq_of_toNat_eq (heq.trans hn.symm)
      rw [if_pos (by omega), if_neg (by omega), heq, Nat.sub_self, List.getD_cons_zero, ha, Memory.read_write_self]
    · rw [if_neg (by omega), if_neg (by omega), hne hgt.ne', show a.toNat - n = a.toNat - (n + 1) + 1 by omega,
        List.getD_cons_succ]

/-- Settles O19: the image is loaded from cell 0 into memory that reads as zero. -/
theorem launchLoadsTheImageOrFails : Obligations.LaunchLoadsTheImageOrFails := by
  intro l
  refine ⟨fun h => ⟨_, boot_of_fits h, rfl, rfl, rfl, rfl, rfl, rfl, rfl, rfl, fun a => ?_⟩, boot_of_too_long⟩
  calc (launched l).loadCell a = (Memory.loadFrom [] 0 l.image).read a := rfl
    _ = l.image.getD a.toNat (Memory.read [] a) :=
      (Memory.read_loadFrom [] 0 l.image a (by omega)).trans (if_neg (Nat.not_lt_zero _))
    _ = l.image.getD a.toNat 0x0000#16 := by rw [Memory.read_nil]

theorem wordsOfBytes_bigEndian (ws : List Word) :
    wordsOfBytes (ws.flatMap fun w => [w.extractLsb' 8 8, w.extractLsb' 0 8]) = .ok ws := by
  induction ws with
  | nil => rfl
  | cons w ws ih =>
    rw [List.flatMap_cons, List.cons_append, List.cons_append, List.nil_append, wordsOfBytes, ih]
    exact congrArg (fun v => Except.ok (v :: ws)) (hi_append_lo w)

theorem wordsOfBytes_of_odd : ∀ bs : List Byte, bs.length % 2 = 1 → wordsOfBytes bs = .error .oddByteCount
  | [], h => by cases h
  | [_], _ => rfl
  | _ :: _ :: bs, h => by
    rw [wordsOfBytes, wordsOfBytes_of_odd bs ((Nat.add_mod_right bs.length 2).symm.trans h)]

/-- Settles O20: the pairs by induction on the words, the odd count by recursion on the pairs of bytes. -/
theorem binaryFilesAreBigEndianPairs : Obligations.BinaryFilesAreBigEndianPairs :=
  ⟨wordsOfBytes_bigEndian, wordsOfBytes_of_odd⟩

end Sys2Proof.Machine
end

section
/-! The canonical form is one (log entry 1): a canonical list lists exactly the bytes that read as not zero. -/

namespace Sys2Proof.Machine

/-- An entry of a list with rising byte numbers is what its byte reads as. -/
theorem Memory.readByte_of_mem {m : Memory} (h : m.Pairwise fun c d => c.1 < d.1) {c : Host.Cell} (hc : c ∈ m) :
    m.readByte c.1 = c.2 := by
  induction m with
  | nil => cases hc
  | cons d m ih =>
    obtain ⟨hd, hm⟩ := List.pairwise_cons.mp h
    rw [Memory.readByte_cons]
    rcases List.mem_cons.mp hc with rfl | hc
    · exact if_pos rfl
    · rw [if_neg (hd c hc).ne, ih hm hc]

/-- A byte that does not read as zero is listed. -/
theorem Memory.mem_of_readByte {m : Memory} {n : Nat} (h : m.readByte n ≠ 0x00#8) : (n, m.readByte n) ∈ m := by
  induction m with
  | nil => exact absurd rfl h
  | cons d m ih =>
    rw [Memory.readByte_cons] at h ⊢
    split
    case isTrue hd => rw [← hd]; exact List.mem_cons_self
    case isFalse hd => rw [if_neg hd] at h; exact List.mem_cons_of_mem d (ih h)

theorem Memory.mem_iff_readByte {m : Memory} (h : m.wf) (c : Host.Cell) :
    c ∈ m ↔ m.readByte c.1 = c.2 ∧ c.2 ≠ 0x00#8 := by
  refine ⟨fun hc => ⟨Memory.readByte_of_mem h.1 hc, (h.2 c hc).2⟩, fun ⟨hr, hz⟩ => ?_⟩
  have hc := Memory.mem_of_readByte (hr ▸ hz)
  rwa [hr] at hc

theorem Memory.readByte_of_ge {m : Memory} (h : m.wf) {n : Nat} (hn : 8192 ≤ n) : m.readByte n = 0x00#8 :=
  Memory.readByte_of_forall_ne fun c hc => ((h.2 c hc).1.trans_le hn).ne

theorem Memory.read_toNat (m : Memory) (a : Addr) :
    (m.read a).toNat = (m.readByte (hiByteOf a)).toNat * 256 + (m.readByte (loByteOf a)).toNat := by
  rw [Memory.read, BitVec.toNat_append, ← Nat.shiftLeft_add_eq_or_of_lt (BitVec.isLt _), Nat.shiftLeft_eq]

/-- The bytes of a cell are the halves of its word. -/
theorem Memory.readByte_eq_of_read_eq {m m' : Memory} {a : Addr} (h : m.read a = m'.read a) :
    m.readByte (hiByteOf a) = m'.readByte (hiByteOf a) ∧ m.readByte (loByteOf a) = m'.readByte (loByteOf a) := by
  rw [← BitVec.toNat_inj, Memory.read_toNat, Memory.read_toNat] at h
  have hl := (m.readByte (loByteOf a)).isLt
  have hl' := (m'.readByte (loByteOf a)).isLt
  exact ⟨BitVec.eq_of_toNat_eq (by omega), BitVec.eq_of_toNat_eq (by omega)⟩

/-- Canonical memories alike on every cell are alike on every byte: a byte is half of a cell, or outside and zero. -/
theorem Memory.readByte_ext {m m' : Memory} (h : m.wf) (h' : m'.wf) (hr : ∀ a, m.read a = m'.read a) (n : Nat) :
    m.readByte n = m'.readByte n := by
  rcases Nat.lt_or_ge n 8192 with hn | hn
  · have ha : (BitVec.ofNat 12 (n / 2)).toNat = n / 2 := by
      rw [BitVec.toNat_ofNat]; exact Nat.mod_eq_of_lt (by omega)
    obtain ⟨hhi, hlo⟩ := Memory.readByte_eq_of_read_eq (hr (BitVec.ofNat 12 (n / 2)))
    rw [hiByteOf, ha] at hhi
    rw [loByteOf, ha] at hlo
    rcases Nat.mod_two_eq_zero_or_one n with h0 | h1
    · rwa [show 2 * (n / 2) = n by omega] at hhi
    · rwa [show 2 * (n / 2) + 1 = n by omega] at hlo
  · rw [Memory.readByte_of_ge h hn, Memory.readByte_of_ge h' hn]

/-- Lists with rising byte numbers and the same entries are equal. -/
theorem Memory.eq_of_mem_iff {m m' : Memory} (h : m.wf) (h' : m'.wf) (hm : ∀ c, c ∈ m ↔ c ∈ m') : m = m' := by
  have hirrefl : Std.Irrefl (fun c d : Host.Cell => c.1 < d.1) := ⟨fun _ => lt_irrefl _⟩
  have hantisymm : Std.Antisymm (fun c d : Host.Cell => c.1 < d.1) := ⟨fun _ _ hcd hdc => absurd hcd hdc.asymm⟩
  exact h.1.eq_of_mem_iff h'.1 hm

/-- Settles O31: the entries of both lists are the bytes that do not read as zero, which are the same. -/
theorem memoriesAlikeOnEveryCellAreEqual : Obligations.MemoriesAlikeOnEveryCellAreEqual := by
  intro m m' h h' hr
  refine Memory.eq_of_mem_iff h h' fun c => ?_
  rw [Memory.mem_iff_readByte h, Memory.mem_iff_readByte h', Memory.readByte_ext h h' hr]

end Sys2Proof.Machine
end

section
/-! Addresses and the pointer policies as numbers (20_memory.md R35, 41_data_transfer.md R80). -/

namespace Sys2Proof.Machine

/-- Settles O29. -/
theorem addressesWrapModulo4096 : Obligations.AddressesWrapModulo4096 := by
  refine ⟨addrBits_toNat, fun w => ?_⟩
  rw [addrBits_toNat, addrBits_toNat, BitVec.toNat_add]
  have hone : (0x0001#16).toNat = 1 := rfl
  omega

theorem pointerHigh_toNat (ptr : Word) : (pointerHigh ptr).toNat = ptr.toNat / 4096 := opcodeOf_toNat ptr

theorem pointerHigh_eq_zero_iff (ptr : Word) : pointerHigh ptr = 0x0#4 ↔ ptr.toNat < 4096 := by
  rw [← BitVec.toNat_inj, pointerHigh_toNat]
  exact Nat.div_eq_zero_iff_lt (by decide)

/-- Settles O32. -/
theorem pointerPoliciesGiveTheirAddress : Obligations.PointerPoliciesGiveTheirAddress := by
  intro ptr
  refine ⟨rfl, fun h => ?_, fun h => ?_⟩
  · exact if_pos ((pointerHigh_eq_zero_iff ptr).mpr h)
  · exact if_neg (mt (pointerHigh_eq_zero_iff ptr).mp (Nat.not_lt.mpr h))

end Sys2Proof.Machine
end

section
/-! The ALU as integer arithmetic (42_arithmetic.md R85, R89), and the console adapter's integers (44_io_system.md R111,
R112). -/

namespace Sys2Proof.Machine

theorem aluSub_toNat (a b : Word) : ((aluSub a b).toNat : Int) = ((a.toNat : Int) - b.toNat) % 65536 := by
  have ha := a.isLt
  have hb := b.isLt
  rw [aluSub, BitVec.toNat_sub]
  omega

theorem aluSub_eq_aluAdd_not (a b : Word) : aluSub a b = aluAdd (aluAdd a (~~~b)) 0x0001#16 := by
  rw [aluSub, aluAdd, aluAdd, BitVec.sub_eq_add_neg, BitVec.neg_eq_not_add, BitVec.add_assoc]

/-- The sign of the word's value decides which one of the three tests holds. -/
theorem one_test_holds (a : Word) : (isNeg a).toNat + (isZero a).toNat + (isPos a).toNat = 1 := by
  have hn : isNeg a = decide (a.toInt < 0) := Bool.eq_iff_iff.mpr ((isNeg_iff a).trans decide_eq_true_iff.symm)
  have hz : isZero a = decide (a.toInt = 0) := Bool.eq_iff_iff.mpr ((isZero_iff a).trans decide_eq_true_iff.symm)
  have hp : isPos a = decide (0 < a.toInt) := Bool.eq_iff_iff.mpr ((isPos_iff a).trans decide_eq_true_iff.symm)
  rw [hn, hz, hp]
  rcases lt_trichotomy a.toInt 0 with h | h | h
  · simp [h, h.ne, h.not_gt]
  · simp [h]
  · simp [h, h.ne', h.not_gt]

/-- Settles O33. -/
theorem aluAddsSubtractsAndTests : Obligations.AluAddsSubtractsAndTests :=
  ⟨fun a b => ⟨aluAdd_toNat a b, aluSub_toNat a b, aluSub_eq_aluAdd_not a b⟩,
    fun a => ⟨isNeg_iff a, isZero_iff a, isPos_iff a, one_test_holds a⟩⟩

/-- An integer less than 2^16 away from zero, brought into the signed range: as it is, or one turn off. -/
theorem bmod_wordSize (n : Int) (hlo : -65536 ≤ n) (hhi : n < 65536) :
    (-32768 ≤ n ∧ n ≤ 32767 → n.bmod (2 ^ 16) = n) ∧ (32767 < n → n.bmod (2 ^ 16) = n - 65536) ∧
      (n < -32768 → n.bmod (2 ^ 16) = n + 65536) := by
  rw [Int.bmod_def]
  omega

/-- Settles O34: the signed value of a result is the exact one brought into range, and two signed words are less than
2^16 apart. -/
theorem signedResultsAreExactOrOffBy65536 : Obligations.SignedResultsAreExactOrOffBy65536 := by
  intro a b
  have ha : -32768 ≤ a.toInt ∧ a.toInt < 32768 := ⟨a.le_toInt, a.toInt_lt⟩
  have hb : -32768 ≤ b.toInt ∧ b.toInt < 32768 := ⟨b.le_toInt, b.toInt_lt⟩
  obtain ⟨hadd, haddHi, haddLo⟩ := bmod_wordSize (a.toInt + b.toInt) (by omega) (by omega)
  obtain ⟨hsub, hsubHi, hsubLo⟩ := bmod_wordSize (a.toInt - b.toInt) (by omega) (by omega)
  rw [aluAdd, aluSub, BitVec.toInt_add, BitVec.toInt_sub]
  exact ⟨hadd, haddHi, haddLo, hsub, hsubHi, hsubLo⟩

/-- Settles O54. -/
theorem adapterDeliversTheIntegerOrZero : Obligations.AdapterDeliversTheIntegerOrZero := by
  refine ⟨rfl, fun n => ⟨fun h => ?_, fun h => if_neg (by omega)⟩⟩
  rw [wordOfParsed, if_pos h, BitVec.toInt_ofInt]
  exact (bmod_wordSize n (by omega) (by omega)).1 h

theorem decimalNumeral_of_nonneg {n : Int} (h : 0 ≤ n) : decimalNumeral n = Nat.toDigits 10 n.natAbs :=
  if_neg (not_lt.mpr h)

theorem decimalNumeral_of_neg {n : Int} (h : n < 0) : decimalNumeral n = '-' :: Nat.toDigits 10 n.natAbs := if_pos h

/-- The magnitude of a signed word: its value, or what is missing to 2^16. -/
theorem natAbs_toInt (v : Word) :
    (0 ≤ v.toInt → v.toInt.natAbs = v.toNat) ∧ (v.toInt < 0 → v.toInt.natAbs = 65536 - v.toNat) := by
  have hv := v.isLt
  rw [BitVec.toInt_eq_toNat_cond]
  split <;> omega

/-- Settles O55: the low byte is the value modulo 256; the numeral is that of the magnitude. -/
theorem renderingFollowsTheMode : Obligations.RenderingFollowsTheMode := by
  refine ⟨fun v => ?_, fun v => ⟨fun h => ?_, fun h => ?_⟩⟩
  · rw [render, BitVec.extractLsb'_toNat, Nat.shiftRight_zero]
  · rw [render, decimalNumeral_of_nonneg h, (natAbs_toInt v).1 h]
  · rw [render, decimalNumeral_of_neg h, (natAbs_toInt v).2 h]
    rfl

end Sys2Proof.Machine
end

section
/-! STORE, SUBT, JUMPI, INPUT and HALT (41_data_transfer.md R76, 42_arithmetic.md R87, 43_control.md R98,
44_io_system.md R105, R107): the result and the frame of each. -/

namespace Sys2Proof.Machine

/-- Settles O36: the result is one write of the operand's cell. -/
theorem storeCopiesAcToTheCell : Obligations.StoreCopiesAcToTheCell :=
  ⟨fun a => decode_append 0x2#4 a,
    fun a s => ⟨_, exec_of_no_pointer s rfl, s.loadCell_storeCell_self a s.ac, s.storeCell_onlyCellChanges a s.ac⟩⟩

/-- Settles O41: the result is AC set to the ALU's difference. -/
theorem subtSubtractsTheCellFromAc : Obligations.SubtSubtractsTheCellFromAc :=
  ⟨fun a => decode_append 0x4#4 a,
    fun a s => ⟨_, exec_of_no_pointer s rfl, aluSub_toNat s.ac (s.loadCell a), s.setAc_onlyAcChanges _⟩⟩

/-- Settles O46: the result is PC set to the cell's word, and Execute's one transaction is the read of that cell. -/
theorem jumpiSetsPcToTheCell : Obligations.JumpiSetsPcToTheCell :=
  ⟨fun p => decode_append 0xC#4 p,
    fun p s => ⟨⟨_, exec_of_no_pointer s rfl, s.setPc_pc (s.loadCell p), s.setPc_onlyPcChanges _⟩, rfl⟩⟩

/-- Settles O47: with a word ready the result is AC and the stream; with none the step is the environment's turn. -/
theorem inputTakesTheNextWord : Obligations.InputTakesTheNextWord := by
  refine ⟨fun x => decode_append 0x5#4 x, fun x s w ws hin => ⟨rfl, (s.setInput ws).setAc w, ?_, ?_⟩,
    fun x s hr hd hin => ⟨_, step_of_waits hr ⟨⟨x, hd⟩, hin⟩, s.awaitInput_sameHardware, s.awaitInput_output⟩⟩
  · rw [exec_of_no_pointer s rfl, execResult_input_cons x hin]
  · exact ⟨rfl, rfl, rfl, ⟨rfl, rfl, rfl⟩, rfl, fun _ => rfl, rfl, rfl, rfl⟩

/-- Settles O49: the result is the run state alone, whose step answers itself; no other result is halted. -/
theorem haltStopsTheMachine : Obligations.HaltStopsTheMachine := by
  refine ⟨fun x => decode_append 0x7#4 x, fun x s => ⟨s.setRun .halted, exec_of_no_pointer s rfl, rfl,
    step_of_halted rfl, rfl, rfl, ⟨rfl, rfl, rfl⟩, fun _ => rfl, rfl, rfl, rfl, rfl⟩, fun i s t hr he hh => ?_⟩
  obtain ⟨rfl, -⟩ := exec_next he
  exact (execResult_halted_iff hr).mp hh

end Sys2Proof.Machine
end

section
/-! Two steps in a row (20_memory.md R44, 43_control.md R100, 95_test_vectors.md S2, S3): the first leaves the machine
running, and the second fetches from the memory the first left. -/

namespace Sys2Proof.Machine

theorem succ_succ (w : Word) : w + 0x0001#16 + 0x0001#16 = w + 0x0002#16 := BitVec.add_assoc w 0x0001#16 0x0001#16

/-- Settles O28: the cell the next step fetches is the cell just written. -/
theorem aStoreIsSeenByTheNextFetch : Obligations.AStoreIsSeenByTheNextFetch := by
  rintro s a hr hd rfl
  have hnext : (s.fetch.storeCell (addrBits (s.pc + 0x0001#16)) s.ac).nextWord = s.ac :=
    s.fetch.loadCell_storeCell_self _ _
  refine ⟨_, step_of_decode hr hd rfl rfl, hnext, fun hw => ?_⟩
  exact (step_of_not_waits (s := s.fetch.storeCell _ s.ac) hr hw).trans (congrArg (fun w => exec (decode w) _) hnext)

/-- Settles O51: LOAD leaves memory alone, so the second step is the STORE, of the word LOAD put into AC. -/
theorem loadThenStoreRoundTrips : Obligations.LoadThenStoreRoundTrips := by
  intro s a b hr hd hd'
  exact ⟨_, _, step_of_decode hr hd rfl rfl, step_of_decode (s := s.fetch.setAc (s.loadCell a)) hr hd' rfl rfl,
    State.loadCell_storeCell_self _ b _, succ_succ s.pc⟩

/-- Settles O52: both steps leave memory alone, so SUBT takes away the word that ADD added. -/
theorem addThenSubtRestoresAc : Obligations.AddThenSubtRestoresAc := by
  intro s a hr hd hd'
  exact ⟨_, _, step_of_decode hr hd rfl rfl,
    step_of_decode (s := s.fetch.setAc (aluAdd s.ac (s.loadCell a))) hr hd' rfl rfl,
    BitVec.add_sub_cancel s.ac (s.loadCell a), rfl, succ_succ s.pc⟩

/-- Settles O53: JnS writes the PC that Fetch left into its cell, and JUMPI sets PC to the word of that cell. -/
theorem subroutineReturnsAfterTheCall : Obligations.SubroutineReturnsAfterTheCall := by
  intro s a hr hd
  have hslot : (execResult (.jns a) s.fetch).loadCell a = s.pc + 0x0001#16 := Memory.read_write_self s.mem a _
  refine ⟨_, step_of_decode hr hd rfl rfl, hslot, zextAddr_succ_toNat a, fun u hu hud hcell => ?_⟩
  exact ⟨_, step_of_decode hu hud rfl rfl, hcell.trans hslot⟩

end Sys2Proof.Machine
end
